-- ==== Sys2Proof/Word.lean ====
section
/-! DEFINITION. The words of the machine: the 32-bit word of the registers, the bus and the commands (R7, R20, R70),
the 8-bit byte of the output buffer (R28), and the data register number (R72). -/

namespace Sys2Proof

/-- A 32-bit word: a data register's content, a bus word, a command word (R20, R51, R70). -/
abbrev Word := BitVec 32

/-- One byte of the output buffer: an ASCII code or NUL (R15, R28). -/
abbrev Byte := BitVec 8

/-- The number of a data register X0..X7 (R20, R72). -/
abbrev Reg := Fin 8

end Sys2Proof
end

