-- ==== Sys2Proof/Syntax.lean ====
section
/-! DEFINITION. The commands: one constructor per row of spec/opcode_table.json (R75), with the operands its form uses
(R74). A register operand is a register number (R72). K is LDK's unsigned 4-bit index field (R73). -/

namespace Sys2Proof

inductive Instr where
  /-- `ADD xd, xs1, xs2` (R106). -/
  | add (rd rs1 rs2 : Reg)
  /-- `SUB xd, xs1, xs2` (R108). -/
  | sub (rd rs1 rs2 : Reg)
  /-- `MUL xd, xs1, xs2`, exact multiply (R110). -/
  | mul (rd rs1 rs2 : Reg)
  /-- `DIV xd, xs1, xs2`, exact divide (R114). -/
  | div (rd rs1 rs2 : Reg)
  /-- `FMUL xd, xs1, xs2`, fast multiply (R116). -/
  | fmul (rd rs1 rs2 : Reg)
  /-- `FDIV xd, xs1, xs2`, fast divide (R118). -/
  | fdiv (rd rs1 rs2 : Reg)
  /-- `SCALE xd, xs1`, floor log2 (R120). -/
  | scale (rd rs1 : Reg)
  /-- `FROMINT xd, xs1`, integer to fixed (R103). -/
  | fromint (rd rs1 : Reg)
  /-- `LDK xd, K`, named constant (R104). -/
  | ldk (rd : Reg) (k : BitVec 4)
  /-- `SQRT xd, xs1` (R144). -/
  | sqrt (rd rs1 : Reg)
  /-- `LN xd, xs1` (R146). -/
  | ln (rd rs1 : Reg)
  /-- `EXP xd, xs1` (R154). -/
  | exp (rd rs1 : Reg)
  /-- `POW xd, xs1, xs2`, general power (R152). -/
  | pow (rd rs1 rs2 : Reg)
  /-- `IPOW xd, xs1, xs2`, integer power (R148). -/
  | ipow (rd rs1 rs2 : Reg)
  /-- `FPOW xd, xs1, xs2`, fractional power (R150). -/
  | fpow (rd rs1 rs2 : Reg)
  /-- `SIN xd, xs1` (R159). -/
  | sin (rd rs1 : Reg)
  /-- `COS xd, xs1` (R161). -/
  | cos (rd rs1 : Reg)
  /-- `TAN xd, xs1` (R162). -/
  | tan (rd rs1 : Reg)
  /-- `CSC xd, xs1` (R163). -/
  | csc (rd rs1 : Reg)
  /-- `SEC xd, xs1` (R164). -/
  | sec (rd rs1 : Reg)
  /-- `COT xd, xs1` (R165). -/
  | cot (rd rs1 : Reg)
  /-- `RBIN xs1`, binary rendering (R193). -/
  | rbin (rs1 : Reg)
  /-- `RHEX xs1`, hexadecimal rendering (R195). -/
  | rhex (rs1 : Reg)
  /-- `RDEC xs1`, decimal rendering (R200). -/
  | rdec (rs1 : Reg)
  deriving DecidableEq, Repr

end Sys2Proof
end

