-- ==== Sys2Proof/WellFormed.lean ====
section
/-! DEFINITION. Which commands are well formed. Register operands are in X0..X7 by their type (R72), unused fields do not
occur in the syntax (R74), so the one check left is LDK's K (R73). -/

namespace Sys2Proof

/-- LDK's index names one of the nine loadable constants: "Values 9..15 make the command illegal" (R73). -/
def constantIndexOk (k : BitVec 4) : Bool := k.toNat ≤ 8

/-- Every command but LDK with K of 9..15 has an encoding (R74, R78). -/
def Instr.wellFormed : Instr → Bool
  | .ldk _ k => constantIndexOk k
  | .add _ _ _ | .sub _ _ _ | .mul _ _ _ | .div _ _ _ | .fmul _ _ _ | .fdiv _ _ _ => true
  | .scale _ _ | .fromint _ _ => true
  | .sqrt _ _ | .ln _ _ | .exp _ _ | .pow _ _ _ | .ipow _ _ _ | .fpow _ _ _ => true
  | .sin _ _ | .cos _ _ | .tan _ _ | .csc _ _ | .sec _ _ | .cot _ _ => true
  | .rbin _ | .rhex _ | .rdec _ => true

end Sys2Proof
end

