-- ==== Sys2Proof/Decode.lean ====
section
/-! DEFINITION. Decoding a command word and, after it, encoding a command (R70 to R80, R84). Decoding is total: any 32-bit
word is one command in its form's shape, or is rejected under one of three names (R78). A command is one 32-bit bus word, so
no byte order applies to it (R52, R70). -/

namespace Sys2Proof

/-- Why a command word is illegal (R78). All three raise ILL alike (R84). -/
inductive Illegal where
  /-- The OP field is not in the opcode map (R75, R78). -/
  | reservedOp
  /-- RSV, an unused field or bit 3 of a register field is not zero (R74). -/
  | badShape
  /-- LDK with K of 9..15 (R73). -/
  | constantIndex
  deriving DecidableEq, Repr

/-- The four operand forms (R74). -/
inductive Form where
  | rrr | rr | rk | s
  deriving DecidableEq, Repr

/-- The bits of a command word that a form fixes; they equal OP and zeros (R74). -/
def Form.mask : Form → Word
  | .rrr => 0xFFF888FF#32
  | .rr => 0xFFFF88FF#32
  | .rk => 0xFFF0F8FF#32
  | .s => 0xFFFF8FFF#32

/-- A row of the opcode map: a form, with the command it builds from the form's operands. -/
inductive OpRow where
  | rrr (build : Reg → Reg → Reg → Instr)
  | rr (build : Reg → Reg → Instr)
  | rk (build : Reg → BitVec 4 → Instr)
  | s (build : Reg → Instr)

def OpRow.form : OpRow → Form
  | .rrr _ => .rrr
  | .rr _ => .rr
  | .rk _ => .rk
  | .s _ => .s

/-- The opcode map of R75. -/
def opTable : List (BitVec 8 × OpRow) :=
  [(0x01#8, .rrr .add), (0x02#8, .rrr .sub), (0x03#8, .rrr .mul), (0x04#8, .rrr .div),
   (0x05#8, .rrr .fmul), (0x06#8, .rrr .fdiv), (0x07#8, .rr .scale), (0x08#8, .rr .fromint),
   (0x09#8, .rk .ldk)] ++
  [(0x10#8, .rr .sqrt), (0x11#8, .rr .ln), (0x12#8, .rr .exp), (0x13#8, .rrr .pow),
   (0x14#8, .rrr .ipow), (0x15#8, .rrr .fpow)] ++
  [(0x18#8, .rr .sin), (0x19#8, .rr .cos), (0x1A#8, .rr .tan), (0x1B#8, .rr .csc),
   (0x1C#8, .rr .sec), (0x1D#8, .rr .cot)] ++
  [(0x20#8, .s .rbin), (0x21#8, .s .rhex), (0x22#8, .s .rdec)]

/-! The fields of a command word (R71). -/

def opField (c : Word) : BitVec 8 := c.extractLsb' 0 8
def rdField (c : Word) : BitVec 4 := c.extractLsb' 8 4
def rs1Field (c : Word) : BitVec 4 := c.extractLsb' 12 4
def rs2Field (c : Word) : BitVec 4 := c.extractLsb' 16 4

/-- The register a field names. Decoding has checked that bit 3 of the field is 0 (R72). -/
def fieldReg (f : BitVec 4) : Reg := ⟨f.toNat % 8, Nat.mod_lt _ (by decide)⟩

/-- The command of a row, its operands taken from the fields its form uses (R74). -/
def OpRow.instr (row : OpRow) (c : Word) : Instr :=
  match row with
  | .rrr build => build (fieldReg (rdField c)) (fieldReg (rs1Field c)) (fieldReg (rs2Field c))
  | .rr build => build (fieldReg (rdField c)) (fieldReg (rs1Field c))
  | .rk build => build (fieldReg (rdField c)) (rs2Field c)
  | .s build => build (fieldReg (rs1Field c))

/-- The decoder of R84: the OP value is in the map, the word has its form's shape, and LDK's K is at most 8. -/
def decode (c : Word) : Except Illegal Instr :=
  match opTable.lookup (opField c) with
  | none => .error .reservedOp
  | some row =>
    if c &&& row.form.mask ≠ (opField c).setWidth 32 then .error .badShape
    else if row.form = .rk ∧ constantIndexOk (rs2Field c) = false then .error .constantIndex
    else .ok (row.instr c)

/-- A command word from its fields: `OP | (RD << 8) | (RS1 << 12) | (RS2 << 16)` with RSV = 0 (R71). -/
def commandWord (op : BitVec 8) (rd rs1 rs2 : BitVec 4) : Word :=
  op.setWidth 32 ||| (rd.setWidth 32 <<< 8) ||| (rs1.setWidth 32 <<< 12) ||| (rs2.setWidth 32 <<< 16)

/-- A register number as a 4-bit field (R72). -/
def regField (r : Reg) : BitVec 4 := BitVec.ofNat 4 r.val

/-! The word of each form (R74): the fields the form does not use are zero. -/

def wordRRR (op : BitVec 8) (rd rs1 rs2 : Reg) : Word :=
  commandWord op (regField rd) (regField rs1) (regField rs2)
def wordRR (op : BitVec 8) (rd rs1 : Reg) : Word := commandWord op (regField rd) (regField rs1) 0#4
def wordRK (op : BitVec 8) (rd : Reg) (k : BitVec 4) : Word := commandWord op (regField rd) 0#4 k
def wordS (op : BitVec 8) (rs1 : Reg) : Word := commandWord op 0#4 (regField rs1) 0#4

/-- The word of a command (R71, R74, R75). -/
def encode : Instr → Word
  | .add rd rs1 rs2 => wordRRR 0x01#8 rd rs1 rs2
  | .sub rd rs1 rs2 => wordRRR 0x02#8 rd rs1 rs2
  | .mul rd rs1 rs2 => wordRRR 0x03#8 rd rs1 rs2
  | .div rd rs1 rs2 => wordRRR 0x04#8 rd rs1 rs2
  | .fmul rd rs1 rs2 => wordRRR 0x05#8 rd rs1 rs2
  | .fdiv rd rs1 rs2 => wordRRR 0x06#8 rd rs1 rs2
  | .scale rd rs1 => wordRR 0x07#8 rd rs1
  | .fromint rd rs1 => wordRR 0x08#8 rd rs1
  | .ldk rd k => wordRK 0x09#8 rd k
  | .sqrt rd rs1 => wordRR 0x10#8 rd rs1
  | .ln rd rs1 => wordRR 0x11#8 rd rs1
  | .exp rd rs1 => wordRR 0x12#8 rd rs1
  | .pow rd rs1 rs2 => wordRRR 0x13#8 rd rs1 rs2
  | .ipow rd rs1 rs2 => wordRRR 0x14#8 rd rs1 rs2
  | .fpow rd rs1 rs2 => wordRRR 0x15#8 rd rs1 rs2
  | .sin rd rs1 => wordRR 0x18#8 rd rs1
  | .cos rd rs1 => wordRR 0x19#8 rd rs1
  | .tan rd rs1 => wordRR 0x1A#8 rd rs1
  | .csc rd rs1 => wordRR 0x1B#8 rd rs1
  | .sec rd rs1 => wordRR 0x1C#8 rd rs1
  | .cot rd rs1 => wordRR 0x1D#8 rd rs1
  | .rbin rs1 => wordS 0x20#8 rs1
  | .rhex rs1 => wordS 0x21#8 rs1
  | .rdec rs1 => wordS 0x22#8 rs1

/-- The 32-bit word that holds the `nbits` low bits of `w`, the bits above them zero; none where they need more than one
command word ("exactly one command length", R70). -/
def tableWord (nbits w : Nat) : Option Word :=
  if w % 2 ^ nbits < 2 ^ 32 then some (BitVec.ofNat 32 (w % 2 ^ nbits)) else none

/-- What the decoder reads from an instruction whose bits are `w`, numbered as spec/opcode_table.json numbers them: bit i of
the table is bit i of the bus word (R9, R52, R71). -/
def decodeTableWord (nbits w : Nat) : Option Instr :=
  match tableWord nbits w with
  | none => none
  | some c =>
    match decode c with
    | .ok i => some i
    | .error _ => none

end Sys2Proof
end

