-- ==== Sys2Proof/Config.lean ====
section
/-! DEFINITION. What the spec leaves open: the base address `P_BASE` (R6, R50, D6) and the free draw a STATUS read makes
while a command executes (R25). Both are opaque: no proof can see a value. The third open parameter, `P_LAT(op)`, is a
number of cycles, and "a model takes no time" (R259): log entry 6. -/

namespace Sys2Proof.Config

/-- Which 128-byte block of the host's address space holds the window; the platform fixes it (R50). -/
opaque windowIndex : Nat

/-- `P_BASE`, "a multiple of 128 fixed by the platform" (R50). -/
def pBase : Nat := 128 * windowIndex

/-- The n-th free draw: true when the executing command has completed by the time of the event that asks (R25, R251).
Log entry 3. -/
opaque commandCompletesFirst : Nat → Bool

end Sys2Proof.Config
end

