-- ==== Sys2Proof/Machine/State.lean ====
section
/-! DEFINITION. The state of the block, its reset value, and the reasons a step can stop. -/

namespace Sys2Proof.Machine

/-- Four flags, in the order of R220: bit 0 OV, bit 1 DZ, bit 2 DOM, bit 3 ILL. The accumulator of a command, the LAST flags
(STATUS bits 11:8) and the sticky FLAGS (bits 3:0) all have this layout (R24, R26, R220). -/
abbrev FlagSet := BitVec 4

/-- What an access does: read a word, or write the given word (R50). -/
inductive AccessKind where
  | read
  | write (v : Word)
  deriving DecidableEq, Repr

/-- An access on the host bus: its byte address, its width in bytes, and what it does (R50, R51). -/
structure Access where
  addr : Nat
  bytes : Nat
  kind : AccessKind
  deriving DecidableEq, Repr

/-- What arrives from outside the block: an access on the host port (R57), or a change of the reset input (R250). -/
inductive HostEvent where
  | access (a : Access)
  | assertReset
  | releaseReset
  deriving DecidableEq, Repr

/-- The word a read returned, with the window offset that was read (R50). -/
structure Reply where
  offset : Nat
  value : Word
  deriving DecidableEq, Repr

structure State where
  /-- X0..X7 (R20). -/
  x : Vector Word 8
  /-- STATUS bits 11:8, the flags of the most recently completed command (R24). -/
  last : FlagSet
  /-- FLAGS bits 3:0, the sticky flags (R26). -/
  flags : FlagSet
  /-- OUTLEN bits 5:0 (R29). -/
  outlen : BitVec 6
  /-- OUT[0]..OUT[35] (R28). -/
  out : Vector Byte 36
  /-- The word of the command being executed (R33). STATUS.BUSY is 1 exactly while there is one (R25). -/
  executing : Option Word
  /-- The reset input is asserted (R250). -/
  inReset : Bool
  /-- The model's own: the events not yet served, in arrival order (R57). Log entry 1. -/
  pending : List HostEvent
  /-- The model's own: the words read so far, newest first. Log entry 2. -/
  replies : List Reply
  /-- The model's own: how many free draws have been made (R25). Log entry 3. -/
  draws : Nat
  deriving DecidableEq, Repr

/-- Why the machine stops with a fault: never. The block has no traps, exceptions or error responses (R223), so this type
has no constructor and no step can fault. -/
inductive Fault where
  deriving DecidableEq, Repr

/-- Why a step is refused. No command is. -/
inductive Refusal where
  /-- `exec` raises it for a command that has no meaning yet; there is none left. Safe: the run stops. -/
  | notModelled (mnemonic : String)
  /-- `step` raises it for an access to the window that is not a 32-bit word at an offset that is a multiple of 4: "a model
  refuses such an access (the host's access has no step)" (R51). Safe: the run stops. -/
  | accessNotAWord
  /-- `step` raises it for an access to the window while reset is asserted: "not performed (the host has no step for them)"
  (R250). Safe: the run stops. -/
  | accessDuringReset
  deriving DecidableEq, Repr

/-- The state right after reset: every register 0, no command in progress, the reset input released (R35, R250). The model's
own fields are empty (log entries 1, 2, 3). -/
def State.reset : State where
  x := Vector.replicate 8 0#32
  last := 0#4
  flags := 0#4
  outlen := 0#6
  out := Vector.replicate 36 0#8
  executing := none
  inReset := false
  pending := []
  replies := []
  draws := 0

end Sys2Proof.Machine
end

