-- ==== Sys2Proof/Machine/Flags.lean ====
section
/-! DEFINITION. The flag accumulator and the narrowing that raises OV (R10, R13, R14, R220, R221), and the commit of a
command's flags (R222). -/

namespace Sys2Proof.Machine

/-! The four flags (R220). -/

def flagOV : FlagSet := 0b0001#4
def flagDZ : FlagSet := 0b0010#4
def flagDOM : FlagSet := 0b0100#4
def flagILL : FlagSet := 0b1000#4

/-- A flag raised under a condition. -/
def raiseIf (c : Bool) (f : FlagSet) : FlagSet := if c then f else 0#4

/-- What a function of the pseudocode answers: its value, with the flags it raised into the accumulator (R14). -/
structure Fx (α : Type) where
  val : α
  fl : FlagSet
  deriving DecidableEq, Repr

/-- A value that raises no flag. -/
def Fx.pure {α : Type} (v : α) : Fx α := ⟨v, 0#4⟩

/-- First `m`, then `f` on its value. "A flag once raised stays raised": the flags of both are kept (R220). -/
def Fx.andThen {α β : Type} (m : Fx α) (f : α → Fx β) : Fx β :=
  match m with
  | ⟨v, fl⟩ =>
    match f v with
    | ⟨w, fl'⟩ => ⟨w, fl ||| fl'⟩

/-- `fits32(v)` (R10). -/
def fits32 (v : Int) : Bool := -2 ^ 31 ≤ v && v ≤ 2 ^ 31 - 1

/-- `wrap32(v)`, as the word that reads so (R10). -/
def wrap32 (v : Int) : Word := BitVec.ofInt 32 v

/-- The common end of the integer operations: `if not fits32(v): raise OV()`, then `wrap32(v)` (R102, R105, R107, R109). -/
def narrow (v : Int) : Fx Word := ⟨wrap32 v, raiseIf (!fits32 v) flagOV⟩

/-- `commit(fl)` (R222): LAST is replaced, FLAGS is ORed, BUSY is cleared. -/
def commit (fl : FlagSet) (s : State) : State :=
  { s with last := fl, flags := s.flags ||| fl, executing := none }

end Sys2Proof.Machine
end

