-- ==== Sys2Proof/Machine/Ops.lean ====
section
/-! DEFINITION. The named operations on the state: data registers, the output buffer, the register window, reset, and the
completion of an illegal command, which stands where another machine takes an exception: the block has no traps (R223), and
what it does with a word it cannot decode is this (R84, R224). -/

namespace Sys2Proof.Machine

/-- `x[i]` (R12, R20). -/
def readReg (s : State) (r : Reg) : Word := s.x[r.val]

/-- `x[i] <- v` (R12, R20). No register is hard-wired. -/
def writeReg (s : State) (r : Reg) (v : Word) : State := { s with x := s.x.set r.val v }

/-- `render_commit(T, n)` less the flags: the whole buffer is cleared, then the text is written, and OUTLEN counts its
characters (R191). -/
def renderText (text : List Byte) (s : State) : State :=
  { s with out := Vector.ofFn fun k => text.getD k.val 0#8, outlen := BitVec.ofNat 6 text.length }

/-- The completion of an illegal command: it raises ILL and writes nothing else (R84, R224). -/
def illegalCommand (s : State) : State := commit flagILL s

/-- What stands at a word offset of the window (R22). -/
inductive WindowReg where
  | id | status | cmd | flags
  | data (r : Reg)
  | outlen
  | out (k : Fin 9)
  | reserved
  deriving DecidableEq, Repr

/-- The map of R22, for an offset that is a multiple of 4 below 128. -/
def windowReg (offset : Nat) : WindowReg :=
  if offset = 0x00 then .id
  else if offset = 0x04 then .status
  else if offset = 0x08 then .cmd
  else if offset = 0x0C then .flags
  else if offset < 0x30 then .data ⟨(offset - 0x10) / 4 % 8, Nat.mod_lt _ (by decide)⟩
  else if offset = 0x30 then .outlen
  else if offset < 0x40 then .reserved
  else if offset < 0x64 then .out ⟨(offset - 0x40) / 4 % 9, Nat.mod_lt _ (by decide)⟩
  else .reserved

/-- The constant of the ID register (R30). -/
def idWord : Word := 0x544D5101#32

/-- STATUS: BUSY in bit 0, the LAST flags in bits 11:8, the rest 0 (R24, R25). -/
def statusWord (s : State) : Word :=
  (0#20 ++ s.last ++ 0#7 ++ BitVec.ofBool s.executing.isSome).setWidth 32

/-- `OUTk = {OUT[4k+3], OUT[4k+2], OUT[4k+1], OUT[4k]}` (R28, R52). -/
def outWord (s : State) (k : Fin 9) : Word :=
  (s.out[4 * k.val + 3] ++ s.out[4 * k.val + 2] ++ s.out[4 * k.val + 1] ++ s.out[4 * k.val]).setWidth 32

/-- A read of the window: `MemRead(P_BASE + offset, 4)` (R22, R50). It has no side effect (R53). -/
def readWindow (s : State) (offset : Nat) : Word :=
  match windowReg offset with
  | .id => idWord
  | .status => statusWord s
  | .cmd => 0#32
  | .flags => s.flags.setWidth 32
  | .data r => readReg s r
  | .outlen => s.outlen.setWidth 32
  | .out k => outWord s k
  | .reserved => 0#32

/-- A write of the window: `MemWrite(P_BASE + offset, 4, v)` (R22, R50). CMD accepts the command and sets BUSY (R23, R84),
FLAGS clears the flags whose bits are 1 (R26), a data register is replaced (R20), everything else is ignored (R31, R32). -/
def writeWindow (s : State) (offset : Nat) (v : Word) : State :=
  match windowReg offset with
  | .cmd => { s with executing := some v }
  | .flags => { s with flags := s.flags &&& ~~~ (v.setWidth 4) }
  | .data r => writeReg s r v
  | .id | .status | .outlen | .out _ | .reserved => s

/-- The access reaches the block: `P_BASE <= addr < P_BASE + 128` (R50). -/
def Access.reaches (a : Access) : Bool := Config.pBase ≤ a.addr && a.addr < Config.pBase + 128

/-- `offset = addr - P_BASE` (R50). -/
def Access.offset (a : Access) : Nat := a.addr - Config.pBase

/-- "32 bits wide and ... a multiple of 4" (R51). -/
def Access.isWord (a : Access) : Bool := a.bytes == 4 && a.offset % 4 == 0

/-- A read of STATUS, the one access that is never held (R58). -/
def Access.isStatusRead (a : Access) : Bool :=
  a.reaches && a.isWord && a.offset == 0x04 && a.kind == .read

/-- Performs one access that has its turn: one outside the window does nothing here (R50), one that is not a word or comes
during reset is refused (R51, R250), a read answers a word, and a write is done. -/
def perform (a : Access) (s : State) : Host.Outcome State Fault Refusal :=
  if a.reaches = false then .next s
  else if s.inReset then .refused .accessDuringReset
  else if a.isWord = false then .refused .accessNotAWord
  else
    match a.kind with
    | .read => .next { s with replies := ⟨a.offset, readWindow s a.offset⟩ :: s.replies }
    | .write v => .next (writeWindow s a.offset v)

/-- Reset is applied: every piece of state takes its reset value, a command in progress is abandoned, and the input stays
asserted until it is released (R35, R250, R251). The model's own fields stay. -/
def applyReset (s : State) : State :=
  { State.reset with inReset := true, pending := s.pending, replies := s.replies, draws := s.draws }

/-- The reset input is released. -/
def releaseReset (s : State) : State := { s with inReset := false }

/-- Serves one event on an idle block. -/
def serve (e : HostEvent) (s : State) : Host.Outcome State Fault Refusal :=
  match e with
  | .access a => perform a s
  | .assertReset => .next (applyReset s)
  | .releaseReset => .next (releaseReset s)

end Sys2Proof.Machine
end

