-- ==== Sys2Proof/Machine/Operands.lean ====
section
/-! DEFINITION. The operand forms: how a legal command of each form reads its operands, writes its result and commits its
flags, in one step (R74, R85, R222). Operands are read before the destination is written, so a destination may be a source
(R85). -/

namespace Sys2Proof.Machine

/-- The completion of a command that has a destination: "a legal command always writes its destination, whatever flags it
raises" (R85). -/
def finish (rd : Reg) (r : Fx Word) (s : State) : Host.Outcome State Fault Refusal :=
  .next (commit r.fl (writeReg s rd r.val))

/-- Form RRR: two sources and a destination. -/
def runRRR (f : Word → Word → Fx Word) (rd rs1 rs2 : Reg) (s : State) : Host.Outcome State Fault Refusal :=
  finish rd (f (readReg s rs1) (readReg s rs2)) s

/-- Form RR: one source and a destination. -/
def runRR (f : Word → Fx Word) (rd rs1 : Reg) (s : State) : Host.Outcome State Fault Refusal :=
  finish rd (f (readReg s rs1)) s

/-- Form RK: a constant index and a destination. An index that names no constant makes the command illegal (R73, R84). -/
def runRK (f : BitVec 4 → Option Word) (rd : Reg) (k : BitVec 4) (s : State) : Host.Outcome State Fault Refusal :=
  match f k with
  | some v => finish rd (Fx.pure v) s
  | none => .next (illegalCommand s)

/-- Form S: one source, the result is text. Renders raise no flag (R191). -/
def runS (f : Word → List Byte) (rs1 : Reg) (s : State) : Host.Outcome State Fault Refusal :=
  .next (commit 0#4 (renderText (f (readReg s rs1)) s))

end Sys2Proof.Machine
end

