-- ==== Sys2Proof/Machine/Arith.lean ====
section
/-! DEFINITION. The arithmetic engine of 40_arith.md: the named constants, the functions of the pseudocode and the commands
FROMINT, LDK, ADD, SUB, MUL, DIV, FMUL, FDIV, SCALE. `int32(w)` is `w.toInt` and `uint32(w)` is `w.toNat` (R10). -/

namespace Sys2Proof.Machine

/-! The named constants and sentinels (R100, R140). -/

def ONE : Word := 65536#32
def TWO : Word := 131072#32
def PI : Word := 205887#32
def PI_BY_2 : Word := 102944#32
def THREE_PI_BY_2 : Word := 308831#32
def TWO_PI : Word := 411775#32
def E : Word := 178145#32
def SQRT2 : Word := 92682#32
def LN2 : Word := 45426#32
def MAX : Word := 0x7FFFFFFF#32
def NMAX : Word := 0x80000001#32
def INVALID : Word := 0x80000000#32

/-- The indexed rows of R100. -/
def constTable : List Word := [ONE, TWO, PI, PI_BY_2, THREE_PI_BY_2, TWO_PI, E, SQRT2, LN2]

/-- `CONST[K]`; there is none for K of 9..15 (R73). -/
def namedConstant (k : BitVec 4) : Option Word := constTable[k.toNat]?

/-- `mag(a)`, with `mag(-2^31) = 2^31` (R10, D15). -/
def mag (a : Word) : Nat := a.toInt.natAbs

/-- `neg(a)` (R10). -/
def neg (a : Word) : Bool := a.toInt < 0

/-- A magnitude with its sign reapplied (R109, R113). -/
def applySign (s : Bool) (q : Nat) : Int := if s then -(q : Int) else q

/-- `fx_fromint(n)` (R102). -/
def fxFromint (n : Word) : Fx Word := narrow (n.toInt * 2 ^ 16)

/-- `fx_add(a, b)` (R105). -/
def fxAdd (a b : Word) : Fx Word := narrow (a.toInt + b.toInt)

/-- `fx_sub(a, b)` (R107). -/
def fxSub (a b : Word) : Fx Word := narrow (a.toInt - b.toInt)

/-- `fx_mul(a, b)` (R109). -/
def fxMul (a b : Word) : Fx Word :=
  narrow (applySign (neg a != neg b) ((mag a * mag b) >>> 16))

/-- The loop of `udiv64` (R111), from bit `i - 1` down to bit 0, with the quotient and the running remainder so far. -/
def udiv64Loop (n d : Nat) : Nat → Nat → Nat → Nat
  | 0, q, _ => q
  | i + 1, q, r =>
    let r' := ((r <<< 1) ||| (n >>> i % 2)) % 2 ^ 64
    if r' ≥ d then udiv64Loop n d i (q ||| (1 <<< i)) (r' - d) else udiv64Loop n d i q r'

/-- `udiv64(N, D)`, the restoring binary long division (R111). -/
def udiv64 (n d : Nat) : Nat := udiv64Loop n d 64 0 0

/-- `fx_div(a, b)` (R113). -/
def fxDiv (a b : Word) : Fx Word :=
  let s := neg a != neg b
  let q := udiv64 (mag a <<< 16) (mag b)
  ⟨wrap32 (applySign s (q % 2 ^ 32)),
    if mag b = 0 then flagDZ else raiseIf (!fits32 (applySign s q)) flagOV⟩

/-- The low 8 bits dropped by an arithmetic shift (R115, R117). -/
def dropLow8 (a : Word) : Int := a.toInt >>> 8

/-- `fx_fmul(a, b)` (R115). -/
def fxFmul (a b : Word) : Fx Word := narrow (dropLow8 a * dropLow8 b)

/-- `fx_fdiv(a, b)` (R117). -/
def fxFdiv (a b : Word) : Fx Word :=
  if dropLow8 b = 0 then ⟨if a.toInt ≥ 0 then MAX else NMAX, flagDZ⟩
  else narrow (Int.tdiv (dropLow8 a * 2 ^ 16) (dropLow8 b))

/-- The scan of `fx_scale_raw` from bit `k - 1` down (R119). -/
def scaleScan (u : Nat) : Nat → Int
  | 0 => -16
  | k + 1 => if u.testBit k then (k : Int) - 16 else scaleScan u k

/-- `fx_scale_raw(a)` (R119). It raises no flag. -/
def fxScaleRaw (a : Word) : Int := scaleScan a.toNat 32

/-- What SCALE computes: the scan's result as a plain integer, DOM when a <= 0 (R120). -/
def fxScale (a : Word) : Fx Word := ⟨wrap32 (fxScaleRaw a), raiseIf (a.toInt ≤ 0) flagDOM⟩

/-- `pow2(s)` for s in [-16, 14]: the raw value `1 << (s + 16)` (R121). -/
def pow2 (s : Int) : Word := BitVec.ofNat 32 (1 <<< (s + 16).toNat)

/-- `fx_norm(x)` for x > 0: the mantissa in [1, 2) and the exponent (R122). -/
def fxNorm (x : Word) : Fx (Word × Int) :=
  let s := fxScaleRaw x
  (fxDiv x (pow2 s)).andThen fun f => .pure (f, s)

/-! The commands. -/

/-- ADD (R106). -/
def execAdd (rd rs1 rs2 : Reg) (s : State) : Host.Outcome State Fault Refusal := runRRR fxAdd rd rs1 rs2 s

/-- SUB (R108). -/
def execSub (rd rs1 rs2 : Reg) (s : State) : Host.Outcome State Fault Refusal := runRRR fxSub rd rs1 rs2 s

/-- MUL (R110). -/
def execMul (rd rs1 rs2 : Reg) (s : State) : Host.Outcome State Fault Refusal := runRRR fxMul rd rs1 rs2 s

/-- DIV (R114). -/
def execDiv (rd rs1 rs2 : Reg) (s : State) : Host.Outcome State Fault Refusal := runRRR fxDiv rd rs1 rs2 s

/-- FMUL (R116). -/
def execFmul (rd rs1 rs2 : Reg) (s : State) : Host.Outcome State Fault Refusal := runRRR fxFmul rd rs1 rs2 s

/-- FDIV (R118). -/
def execFdiv (rd rs1 rs2 : Reg) (s : State) : Host.Outcome State Fault Refusal := runRRR fxFdiv rd rs1 rs2 s

/-- SCALE (R120). -/
def execScale (rd rs1 : Reg) (s : State) : Host.Outcome State Fault Refusal := runRR fxScale rd rs1 s

/-- FROMINT (R103). -/
def execFromint (rd rs1 : Reg) (s : State) : Host.Outcome State Fault Refusal := runRR fxFromint rd rs1 s

/-- LDK (R104). -/
def execLdk (rd : Reg) (k : BitVec 4) (s : State) : Host.Outcome State Fault Refusal := runRK namedConstant rd k s

end Sys2Proof.Machine
end

