-- ==== Sys2Proof/Machine/Render.lean ====
section
/-! DEFINITION. The renderers of 42_format.md: the texts and the commands RBIN, RHEX, RDEC. -/

namespace Sys2Proof.Machine

/-! The ASCII codes of R15. -/

def chSpace : Byte := 0x20#8
def chMinus : Byte := 0x2D#8
def chPoint : Byte := 0x2E#8
def chZero : Byte := 0x30#8

/-- The sign character (R190). -/
def signChar (a : Word) : Byte := if neg a then chMinus else chSpace

/-- The integer part `ip = m >> 16` of the magnitude (R190). -/
def intPart (a : Word) : Nat := mag a >>> 16

/-- The fraction field `fp = m & 0xFFFF` of the magnitude (R190). -/
def fracField (a : Word) : Nat := mag a % 2 ^ 16

/-- A decimal digit's character. -/
def decChar (d : Nat) : Byte := BitVec.ofNat 8 (0x30 + d)

/-- `hexdig(d)`, upper case (R194). -/
def hexChar (d : Nat) : Byte := if d < 10 then decChar d else BitVec.ofNat 8 (0x41 + (d - 10))

/-- The low `n` digits of `v` in a base, most significant first. -/
def digits (base v : Nat) : Nat → List Nat
  | 0 => []
  | n + 1 => v / base ^ n % base :: digits base v n

/-- `bin_text(a)` (R192). -/
def binText (a : Word) : List Byte :=
  signChar a :: (digits 2 (intPart a) 16).map decChar ++ chPoint :: (digits 2 (fracField a) 16).map decChar

/-- `hex_text(a)` (R194). -/
def hexText (a : Word) : List Byte :=
  signChar a :: (digits 16 (intPart a) 4).map hexChar ++ chPoint :: (digits 16 (fracField a) 4).map hexChar

/-- The decimal-expansion table (R196). -/
def decTable : List Nat :=
  [500000000000, 250000000000, 125000000000, 62500000000, 31250000000, 15625000000, 7812500000, 3906250000] ++
  [1953125000, 976562500, 488281250, 244140625, 122070312, 61035156, 30517578, 15258789]

/-- The loop of `dec_frac` over the entries left, the first of which belongs to fraction bit `bit - 1` (R197). -/
def decFracLoop (fp : Nat) : List Nat → Nat → Nat → Nat → Nat × Nat
  | [], _, ip, acc => (ip, acc)
  | d :: ds, bit, ip, acc =>
    if fp.testBit (bit - 1) then
      if acc + d ≥ 10 ^ 12 then decFracLoop fp ds (bit - 1) (ip + 1) (acc + d - 10 ^ 12)
      else decFracLoop fp ds (bit - 1) ip (acc + d)
    else decFracLoop fp ds (bit - 1) ip acc

/-- `dec_frac(ip, fp)` (R197). -/
def decFrac (ip fp : Nat) : Nat × Nat := decFracLoop fp decTable 16 ip 0

/-- Drops leading zero digits, but never the last digit. -/
def dropLeadingZeros : List Nat → List Nat
  | d :: e :: ds => if d = 0 then dropLeadingZeros (e :: ds) else d :: e :: ds
  | ds => ds

/-- The integer digits: decimal, no leading zeros, "0" for zero, 1 to 5 digits (R198). -/
def intDigits (ip : Nat) : List Nat := dropLeadingZeros (digits 10 ip 5)

/-- The fraction digits: 12 of them, trailing zeros trimmed down to one digit (R199). -/
def fracDigits (acc : Nat) : List Nat := (dropLeadingZeros (digits 10 acc 12).reverse).reverse

/-- `dec_text(a)` (R199). -/
def decText (a : Word) : List Byte :=
  let p := decFrac (intPart a) (fracField a)
  signChar a :: (intDigits p.1).map decChar ++ chPoint :: (fracDigits p.2).map decChar

/-! The commands. -/

/-- RBIN (R193). -/
def execRbin (rs1 : Reg) (s : State) : Host.Outcome State Fault Refusal := runS binText rs1 s

/-- RHEX (R195). -/
def execRhex (rs1 : Reg) (s : State) : Host.Outcome State Fault Refusal := runS hexText rs1 s

/-- RDEC (R200). -/
def execRdec (rs1 : Reg) (s : State) : Host.Outcome State Fault Refusal := runS decText rs1 s

end Sys2Proof.Machine
end

