-- ==== Sys2Proof/Machine/Transcendental.lean ====
section
/-! DEFINITION. The transcendental engine of 41_transcendental.md: the functions of the pseudocode and the commands SQRT,
LN, EXP, POW, IPOW, FPOW, SIN, COS, TAN, CSC, SEC, COT. Every function is the pseudocode's, step by step, over the exact
primitives of 40_arith.md; its flags are those its steps raise (R14). -/

namespace Sys2Proof.Machine

/-- An integer of the pseudocode as an `fx_fromint` operand: `fx_fromint(6)` is `fxInt 6`. -/
def fxInt (n : Int) : Fx Word := fxFromint (wrap32 n)

/-- A term divided by its integer: `fx_div(t, fx_fromint(n))` (R145, R157). -/
def fxDivInt (t : Word) (n : Int) : Fx Word := (fxInt n).andThen fun d => fxDiv t d

/-! Square root. -/

/-- One Newton-Raphson step, `fx_div(fx_add(r, fx_div(f, r)), TWO)` (R142). -/
def sqrtNewton (f r : Word) : Fx Word :=
  (fxDiv f r).andThen fun q =>
  (fxAdd r q).andThen fun t =>
  fxDiv t TWO

/-- `fx_sqrt_rebuild(r, s)`: the √2 factor for an odd s first, then 2^floor(s / 2) (R143). -/
def fxSqrtRebuild (r : Word) (s : Int) : Fx Word :=
  (if s % 2 = 1 then fxMul r SQRT2 else .pure r).andThen fun y =>
  fxMul y (pow2 (s >>> 1))

/-- `fx_sqrt_pos(x)` for x > 0 (R142). -/
def fxSqrtPos (x : Word) : Fx Word :=
  (fxNorm x).andThen fun (f, s) =>
  (fxAdd ONE f).andThen fun t =>
  (fxDiv t TWO).andThen fun r0 =>
  (sqrtNewton f r0).andThen fun r1 =>
  (sqrtNewton f r1).andThen fun r2 =>
  fxSqrtRebuild r2 s

/-- `fx_sqrt(x)` (R141). -/
def fxSqrt (x : Word) : Fx Word :=
  if x = 0#32 then .pure 0#32
  else if x = ONE then .pure ONE
  else if x.toInt < 0 then ⟨INVALID, flagDOM⟩
  else fxSqrtPos x

/-! Natural logarithm. -/

/-- The four-term series of `fx_ln` in u = f - 1, summed left to right (R145). -/
def lnSeries (u : Word) : Fx Word :=
  (fxMul u u).andThen fun u2 =>
  (fxMul u2 u).andThen fun u3 =>
  (fxMul u3 u).andThen fun u4 =>
  (fxDivInt u2 2).andThen fun d2 =>
  (fxSub u d2).andThen fun t =>
  (fxDivInt u3 3).andThen fun d3 =>
  (fxAdd t d3).andThen fun t' =>
  (fxDivInt u4 4).andThen fun d4 =>
  fxSub t' d4

/-- `fx_ln(x)` (R145). -/
def fxLn (x : Word) : Fx Word :=
  if x.toInt ≤ 0 then ⟨INVALID, flagDOM⟩
  else if x = ONE then .pure 0#32
  else
    (fxNorm x).andThen fun (f, s) =>
    (fxSub f ONE).andThen fun u =>
    (lnSeries u).andThen fun t =>
    (fxInt s).andThen fun e =>
    (fxMul e LN2).andThen fun m =>
    fxAdd t m

/-! Powers and exponential. -/

/-- The recursion of `fx_ipow` (R147) with at most `levels` levels. -/
def fxIpowLevels : Nat → Word → Nat → Fx Word
  | 0, _, _ => .pure ONE
  | levels + 1, b, n =>
    if n = 0 then .pure ONE
    else
      (fxIpowLevels levels b (n >>> 1)).andThen fun h =>
      (fxMul h h).andThen fun h2 =>
      if n % 2 = 1 then fxMul h2 b else .pure h2

/-- `fx_ipow(b, n)` for n below 2^32: "at most 33 levels" (R147). -/
def fxIpow (b : Word) (n : Nat) : Fx Word := fxIpowLevels 33 b n

/-- The loop of `fx_fpow` from bit `j - 1` of p down, with the accumulator and the last root (R149). -/
def fxFpowLoop (p : Nat) : Nat → Word → Word → Fx Word
  | 0, acc, _ => .pure acc
  | j + 1, acc, r =>
    if p % 2 ^ (j + 1) = 0 then .pure acc
    else
      (fxSqrt r).andThen fun r' =>
      (if p.testBit j then fxMul acc r' else .pure acc).andThen fun acc' =>
      fxFpowLoop p j acc' r'

/-- `fx_fpow(b, p)` for p in [0, 65535] (R149). -/
def fxFpow (b : Word) (p : Nat) : Fx Word := fxFpowLoop p 16 ONE b

/-- `fx_pow(b, p)` (R151). -/
def fxPow (b p : Word) : Fx Word :=
  (fxIpow b (mag p >>> 16)).andThen fun i =>
  (fxFpow b (mag p % 2 ^ 16)).andThen fun f =>
  (fxMul i f).andThen fun r =>
  if p.toInt < 0 then fxDiv ONE r else .pure r

/-- `fx_exp(x)` (R153). -/
def fxExp (x : Word) : Fx Word := fxPow E x

/-! Sine and the functions derived from it. -/

/-- `fx_reduce(x)`: the floor remainder by the raw value of TWO_PI (R155). -/
def fxReduce (x : Word) : Word := wrap32 (Int.fmod x.toInt TWO_PI.toInt)

/-- `fx_sinser(t)`, the 7th-order Maclaurin series (R157). -/
def fxSinser (t : Word) : Fx Word :=
  (fxMul t t).andThen fun t2 =>
  (fxMul t2 t).andThen fun t3 =>
  (fxMul t3 t2).andThen fun t5 =>
  (fxMul t5 t2).andThen fun t7 =>
  (fxDivInt t3 6).andThen fun d3 =>
  (fxSub t d3).andThen fun y =>
  (fxDivInt t5 120).andThen fun d5 =>
  (fxAdd y d5).andThen fun y' =>
  (fxDivInt t7 5040).andThen fun d7 =>
  fxSub y' d7

/-- `fx_sub(0, y)`, the negation of the second half turn (R158). -/
def fxNegate (y : Word) : Fx Word := fxSub 0#32 y

/-- `fx_sin` of a reduced angle: the boundary values, then one quadrant each (R156, R158). -/
def sinReduced (r : Word) : Fx Word :=
  if r = 0#32 ∨ r = PI then .pure 0#32
  else if r = PI_BY_2 then .pure ONE
  else if r = THREE_PI_BY_2 then .pure (-ONE)
  else if r.toInt < PI_BY_2.toInt then fxSinser r
  else if r.toInt < PI.toInt then (fxSub PI r).andThen fxSinser
  else if r.toInt < THREE_PI_BY_2.toInt then ((fxSub r PI).andThen fxSinser).andThen fxNegate
  else ((fxSub TWO_PI r).andThen fxSinser).andThen fxNegate

/-- `fx_sin(x)` (R158). -/
def fxSin (x : Word) : Fx Word := sinReduced (fxReduce x)

/-- `fx_cos(x)` (R160). -/
def fxCos (x : Word) : Fx Word := (fxSub PI_BY_2 x).andThen fxSin

/-- What TAN computes (R162). -/
def fxTan (x : Word) : Fx Word :=
  (fxSin x).andThen fun s => (fxCos x).andThen fun c => fxDiv s c

/-- What CSC computes (R163). -/
def fxCsc (x : Word) : Fx Word := (fxSin x).andThen fun s => fxDiv ONE s

/-- What SEC computes (R164). -/
def fxSec (x : Word) : Fx Word := (fxCos x).andThen fun c => fxDiv ONE c

/-- What COT computes: cosine over sine, not 1 over tangent (R165). -/
def fxCot (x : Word) : Fx Word :=
  (fxCos x).andThen fun c => (fxSin x).andThen fun s => fxDiv c s

/-! The commands. -/

/-- SQRT (R144). -/
def execSqrt (rd rs1 : Reg) (s : State) : Host.Outcome State Fault Refusal := runRR fxSqrt rd rs1 s

/-- LN (R146). -/
def execLn (rd rs1 : Reg) (s : State) : Host.Outcome State Fault Refusal := runRR fxLn rd rs1 s

/-- EXP (R154). -/
def execExp (rd rs1 : Reg) (s : State) : Host.Outcome State Fault Refusal := runRR fxExp rd rs1 s

/-- POW (R152). -/
def execPow (rd rs1 rs2 : Reg) (s : State) : Host.Outcome State Fault Refusal := runRRR fxPow rd rs1 rs2 s

/-- IPOW: the exponent is an unsigned count (R148). -/
def execIpow (rd rs1 rs2 : Reg) (s : State) : Host.Outcome State Fault Refusal :=
  runRRR (fun b n => fxIpow b n.toNat) rd rs1 rs2 s

/-- FPOW: the exponent is the low 16 bits, the others are ignored (R150). -/
def execFpow (rd rs1 rs2 : Reg) (s : State) : Host.Outcome State Fault Refusal :=
  runRRR (fun b p => fxFpow b (p.toNat % 2 ^ 16)) rd rs1 rs2 s

/-- SIN (R159). -/
def execSin (rd rs1 : Reg) (s : State) : Host.Outcome State Fault Refusal := runRR fxSin rd rs1 s

/-- COS (R161). -/
def execCos (rd rs1 : Reg) (s : State) : Host.Outcome State Fault Refusal := runRR fxCos rd rs1 s

/-- TAN (R162). -/
def execTan (rd rs1 : Reg) (s : State) : Host.Outcome State Fault Refusal := runRR fxTan rd rs1 s

/-- CSC (R163). -/
def execCsc (rd rs1 : Reg) (s : State) : Host.Outcome State Fault Refusal := runRR fxCsc rd rs1 s

/-- SEC (R164). -/
def execSec (rd rs1 : Reg) (s : State) : Host.Outcome State Fault Refusal := runRR fxSec rd rs1 s

/-- COT (R165). -/
def execCot (rd rs1 : Reg) (s : State) : Host.Outcome State Fault Refusal := runRR fxCot rd rs1 s

end Sys2Proof.Machine
end

