-- ==== Sys2Proof/Machine/Dispatch.lean ====
section
/-! DEFINITION. The dispatch: one arm per command, each one direct call of its meaning. -/

namespace Sys2Proof.Machine

def exec (i : Instr) (s : State) : Host.Outcome State Fault Refusal :=
  match i with
  -- 40_arith.md
  | .add rd rs1 rs2 => Sys2Proof.Machine.execAdd rd rs1 rs2 s
  | .sub rd rs1 rs2 => Sys2Proof.Machine.execSub rd rs1 rs2 s
  | .mul rd rs1 rs2 => Sys2Proof.Machine.execMul rd rs1 rs2 s
  | .div rd rs1 rs2 => Sys2Proof.Machine.execDiv rd rs1 rs2 s
  | .fmul rd rs1 rs2 => Sys2Proof.Machine.execFmul rd rs1 rs2 s
  | .fdiv rd rs1 rs2 => Sys2Proof.Machine.execFdiv rd rs1 rs2 s
  | .scale rd rs1 => Sys2Proof.Machine.execScale rd rs1 s
  | .fromint rd rs1 => Sys2Proof.Machine.execFromint rd rs1 s
  | .ldk rd k => Sys2Proof.Machine.execLdk rd k s
  -- 41_transcendental.md
  | .sqrt rd rs1 => Sys2Proof.Machine.execSqrt rd rs1 s
  | .ln rd rs1 => Sys2Proof.Machine.execLn rd rs1 s
  | .exp rd rs1 => Sys2Proof.Machine.execExp rd rs1 s
  | .pow rd rs1 rs2 => Sys2Proof.Machine.execPow rd rs1 rs2 s
  | .ipow rd rs1 rs2 => Sys2Proof.Machine.execIpow rd rs1 rs2 s
  | .fpow rd rs1 rs2 => Sys2Proof.Machine.execFpow rd rs1 rs2 s
  | .sin rd rs1 => Sys2Proof.Machine.execSin rd rs1 s
  | .cos rd rs1 => Sys2Proof.Machine.execCos rd rs1 s
  | .tan rd rs1 => Sys2Proof.Machine.execTan rd rs1 s
  | .csc rd rs1 => Sys2Proof.Machine.execCsc rd rs1 s
  | .sec rd rs1 => Sys2Proof.Machine.execSec rd rs1 s
  | .cot rd rs1 => Sys2Proof.Machine.execCot rd rs1 s
  -- 42_format.md
  | .rbin rs1 => Sys2Proof.Machine.execRbin rs1 s
  | .rhex rs1 => Sys2Proof.Machine.execRhex rs1 s
  | .rdec rs1 => Sys2Proof.Machine.execRdec rs1 s

end Sys2Proof.Machine
end

