-- ==== Sys2Proof/Machine/Complete.lean ====
section
/-! DEFINITION. What a step is made of: the completion of the executing command, and the step of an idle and of a busy block
(R25, R57, R58, R84, R85, R250, R251). -/

namespace Sys2Proof.Machine

/-- The completion step of the command word `c` (R84, R85): a legal command runs, an illegal one raises ILL. Results, flags
and BUSY change together (R54, R222). -/
def complete (c : Word) (s : State) : Host.Outcome State Fault Refusal :=
  match decode c with
  | .ok i => exec i s
  | .error _ => .next (illegalCommand s)

/-- A block with no command in progress serves the event that has its turn; with none, it waits (R57, R250). -/
def idleStep (s : State) : Host.Outcome State Fault Refusal :=
  match s.pending with
  | [] => .next s
  | e :: rest => serve e { s with pending := rest }

/-- One more free draw made (R25). -/
def countDraw (s : State) : State := { s with draws := s.draws + 1 }

/-- A STATUS read that finds the command still executing: it returns BUSY = 1 and the previous command's flags (R25). -/
def statusWhileBusy (rest : List HostEvent) (s : State) : State :=
  { s with pending := rest, replies := ⟨0x04, statusWord s⟩ :: s.replies, draws := s.draws + 1 }

/-- A block that is executing command word `c`.
A reset abandons the command (R251).
An access outside the window is not held (R50, R58).
A STATUS read is not held: a free draw says whether the command has completed before it (R25).
Every other access is held until the command completes (R58); if a reset is what follows it, a free draw says which of the
completion and the reset comes first, and where the reset does, the held access is not performed (R251, log entries 3, 9).
Where any other event is what follows it (a second access, one outside the window, a release), the command completes with no
draw, even if a reset comes later: DESIGN CHOICE, log entry 15; R251 does not say what can arrive between the hold and the
reset. -/
def busyStep (c : Word) (s : State) : Host.Outcome State Fault Refusal :=
  match s.pending with
  | [] => complete c s
  | .assertReset :: rest => .next (applyReset { s with pending := rest })
  | .releaseReset :: rest => .next (releaseReset { s with pending := rest })
  | .access a :: rest =>
    if a.reaches = false then .next { s with pending := rest }
    else if a.isStatusRead then
      if Config.commandCompletesFirst s.draws then complete c (countDraw s)
      else .next (statusWhileBusy rest s)
    else
      match rest with
      | .assertReset :: later =>
        if Config.commandCompletesFirst s.draws then complete c (countDraw s)
        else .next (applyReset { countDraw s with pending := later })
      | _ => complete c s

end Sys2Proof.Machine
end

