-- ==== Sys2Proof/Machine/Step.lean ====
section
/-! DEFINITION. One step of the block. An idle block serves the next event, or waits when there is none. A block that is
executing lets a STATUS read or a reset come first where the spec allows it, and otherwise completes its command. -/

namespace Sys2Proof.Machine

/-- The step: idle while no command is executing, busy while one is (R25). -/
def step (s : State) : Host.Outcome State Fault Refusal :=
  match s.executing with
  | none => idleStep s
  | some c => busyStep c s

/-- The state in which the command word `w` has been accepted and nothing stands between it and its completion, so that the
next step runs it (R84, R85). A word that does not fit one command word leaves the state alone. Log entry 5. -/
def State.withFetchWord (s : State) (nbits w : Nat) : State :=
  match tableWord nbits w with
  | none => s
  | some c => { s with executing := some c, inReset := false, pending := [] }

end Sys2Proof.Machine
end

