-- ==== Sys2Proof/Safety.lean ====
section
/-! DEFINITION. The terms the statements use: what a command leaves, the plain-integer readings of the arithmetic, the
invariant of every state a run reaches, and the sequential composition of accesses. -/

namespace Sys2Proof.Machine

/-! What a completed command leaves (R85, R191, R222). -/

/-- The state after a command that wrote `v` to `rd` and raised `fl`: that register, LAST, FLAGS and BUSY change, and
nothing else does. -/
def afterCommand (rd : Reg) (v : Word) (fl : FlagSet) (s : State) : State :=
  { s with x := s.x.set rd.val v, last := fl, flags := s.flags ||| fl, executing := none }

/-- The state after a command word that is illegal: LAST is ILL alone, FLAGS gains ILL, BUSY is clear (R224). -/
def afterIllegal (s : State) : State :=
  { s with last := 0b1000#4, flags := s.flags ||| 0b1000#4, executing := none }

/-- The destination register of a command; renders have none (R74). -/
def destOf : Instr → Option Reg
  | .add rd _ _ | .sub rd _ _ | .mul rd _ _ | .div rd _ _ | .fmul rd _ _ | .fdiv rd _ _ => some rd
  | .scale rd _ | .fromint rd _ | .ldk rd _ => some rd
  | .sqrt rd _ | .ln rd _ | .exp rd _ | .pow rd _ _ | .ipow rd _ _ | .fpow rd _ _ => some rd
  | .sin rd _ | .cos rd _ | .tan rd _ | .csc rd _ | .sec rd _ | .cot rd _ => some rd
  | .rbin _ | .rhex _ | .rdec _ => none

/-- The command word of R71 from the numbers in its fields: `OP | (RD << 8) | (RS1 << 12) | (RS2 << 16)`. -/
def formWord (op rd rs1 rs2 : Nat) : Word := BitVec.ofNat 32 (op + 2 ^ 8 * rd + 2 ^ 12 * rs1 + 2 ^ 16 * rs2)

/-! The arithmetic read on plain integers, with no long division, no sign and magnitude and no narrowing of intermediate
values. The statements say that the model's functions give these values. -/

namespace Plain

/-- OV when an exact result does not fit int32 (R221). -/
def overflow (v : Int) : FlagSet := if -2147483648 ≤ v ∧ v ≤ 2147483647 then 0#4 else flagOV

/-- The exact product of two Q16.16 values rounded toward zero (R109). -/
def product (a b : Int) : Int := Int.tdiv (a * b) 65536

/-- What the exact divide gives: the quotient rounded toward zero, wrapped, with OV when it does not fit; for a zero divisor
raw -1 or 1 with DZ (R113). -/
def quotient (a b : Int) : Word × FlagSet :=
  if b = 0 then (if a < 0 then 1#32 else 0xFFFFFFFF#32, flagDZ)
  else (BitVec.ofInt 32 (Int.tdiv (a * 65536) b), overflow (Int.tdiv (a * 65536) b))

/-- The mantissa `f` of a positive value whose leading bit is bit `k` (R122). -/
def mantissa (x k : Nat) : Nat := x * 65536 / 2 ^ k

/-- The fractional power's loop, its bit numbers 15 downto 0 listed up to the break, over the pair of the accumulator and the
last root (R149). -/
def fpow (b : Word) (p : Nat) : Fx (Word × Word) :=
  (((List.range 16).map fun i => 15 - i).takeWhile fun j => p % 2 ^ (j + 1) ≠ 0).foldl
    (fun m j => m.andThen fun q => (fxSqrt q.2).andThen fun r =>
      (if p.testBit j then fxMul q.1 r else .pure q.1).andThen fun acc => .pure (acc, r))
    (.pure (ONE, b))

/-- One Newton-Raphson step `(r + f/r)/2` (R142). -/
def newton (f r : Nat) : Nat := (r + f * 65536 / r) / 2

/-- The square root of a positive raw value other than ONE (R142, R143). -/
def sqrt (x : Nat) : Nat :=
  let k := Nat.log2 x
  let f := mantissa x k
  let r := newton f (newton f ((65536 + f) / 2))
  (if k % 2 = 1 then r * 92682 / 65536 else r) * 2 ^ (k / 2) / 2 ^ 8

/-- The natural logarithm of a positive raw value other than ONE (R145). -/
def ln (x : Nat) : Int :=
  let k := Nat.log2 x
  let u := mantissa x k - 65536
  let u2 := u * u / 65536
  let u3 := u2 * u / 65536
  let u4 := u3 * u / 65536
  (u : Int) - (u2 / 2 : Nat) + (u3 / 3 : Nat) - (u4 / 4 : Nat) + ((k : Int) - 16) * 45426

/-- The sine series on (0, π/2) (R157). -/
def sinSeries (t : Nat) : Int :=
  let t2 := t * t / 65536
  let t3 := t2 * t / 65536
  let t5 := t3 * t2 / 65536
  let t7 := t5 * t2 / 65536
  (t : Int) - (t3 / 6 : Nat) + (t5 / 120 : Nat) - (t7 / 5040 : Nat)

/-- The sine of a raw angle in [0, 2π) (R156, R158). -/
def sinTurn (r : Nat) : Int :=
  if r = 0 ∨ r = 205887 then 0
  else if r = 102944 then 65536
  else if r = 308831 then -65536
  else if r < 102944 then sinSeries r
  else if r < 205887 then sinSeries (205887 - r)
  else if r < 308831 then -sinSeries (r - 205887)
  else -sinSeries (411775 - r)

/-- The sine of any raw angle (R155, R158). -/
def sin (x : Int) : Int := sinTurn (x % 411775).toNat

/-- The cosine of a raw angle: the sine of the wrapped difference π/2 - x (R160). -/
def cos (x : Int) : Int := sin (BitVec.ofInt 32 (102944 - x)).toInt

/-- The flags of the cosine: OV exactly where π/2 - x does not fit int32 (R160). -/
def cosFlags (x : Int) : FlagSet := if x < -2147380703 then flagOV else 0#4

end Plain

/-! Steps. -/

/-- No event stands before the completion of the executing command: the list is empty, or its first event is an access that
is held, with no reset right behind it (R25, R58, R251). That a reset further back does not come first either is the model's
choice, log entry 15. -/
def NothingComesFirst : List HostEvent → Prop
  | [] => True
  | .access a :: rest => a.reaches = true ∧ a.isStatusRead = false ∧ rest.head? ≠ some .assertReset
  | .assertReset :: _ | .releaseReset :: _ => False

/-- The sequential composition of events: each is served to completion, a command that it issues included, before the next
(R57). -/
def sequential : List HostEvent → State → Host.Outcome State Fault Refusal
  | [], s => .next s
  | e :: es, s =>
    match serve e s with
    | .next t =>
      match t.executing with
      | none => sequential es t
      | some c =>
        match complete c t with
        | .next u => sequential es u
        | .fault f => .fault f
        | .refused r => .refused r
    | .fault f => .fault f
    | .refused r => .refused r

/-- The replies of a run other than those to STATUS reads, which depend on timing (R25, R57). -/
def timelessReplies (s : State) : List Reply := s.replies.filter fun r => r.offset ≠ 0x04

/-- Two states agree on everything a host can find out about the block but the timing of STATUS reads (R22, R57). -/
def SameBlock (s t : State) : Prop :=
  s.x = t.x ∧ s.last = t.last ∧ s.flags = t.flags ∧ s.outlen = t.outlen ∧ s.out = t.out ∧ s.executing = t.executing ∧
  s.inReset = t.inReset ∧ timelessReplies s = timelessReplies t

/-! The invariant. -/

/-- The ASCII codes a renderer writes (R15). -/
def isTextByte (b : Byte) : Bool :=
  b == 0x20#8 || b == 0x2D#8 || b == 0x2E#8 || (0x30 ≤ b.toNat && b.toNat ≤ 0x39) || (0x41 ≤ b.toNat && b.toNat ≤ 0x46)

/-- The output buffer holds one text: OUTLEN text characters, then NULs to the end (R191, R202). -/
def TextForm (s : State) : Prop :=
  ∀ k : Fin 36, if k.val < s.outlen.toNat then isTextByte s.out[k.val] = true else s.out[k.val] = 0#8

/-- The lengths a text can have: none yet, 34 after RBIN, 10 after RHEX, 4 to 19 after RDEC (R29). -/
def LengthForm (s : State) : Prop :=
  s.outlen.toNat = 0 ∨ s.outlen.toNat = 34 ∨ (4 ≤ s.outlen.toNat ∧ s.outlen.toNat ≤ 19)

/-- LAST holds ILL alone, or no ILL: "ILL excludes all other flags" (R225). -/
def LastForm (s : State) : Prop := s.last = 0b1000#4 ∨ s.last &&& 0b1000#4 = 0#4

/-- While reset is asserted every register has its reset value and no command is in progress. DESIGN CHOICE, log entry 9: R250
and R251 say what applying reset does, R260 leaves the state while it is asserted unsaid. -/
def ResetForm (s : State) : Prop :=
  s.inReset = true →
    s.x = State.reset.x ∧ s.last = 0#4 ∧ s.flags = 0#4 ∧ s.outlen = 0#6 ∧ s.out = State.reset.out ∧ s.executing = none

/-- What holds in every state a run reaches. -/
def Inv (s : State) : Prop := TextForm s ∧ LengthForm s ∧ LastForm s ∧ ResetForm s

end Sys2Proof.Machine
end

