-- ==== Sys2Proof/Certificates/Slice0/Obligations.lean ====
section
/-! DEFINITION. The statements. Each names the rule of spec/ it formalises. A command's statement says its encoding, that it
answers a next state for every register number and every state, and what that state is: all of it, so the statement is the
command's frame too. -/

open Sys2Proof
open Sys2Proof.Machine

/-! Encoding. -/

/-- R71 to R76: encoding a well-formed command and decoding the word gives the command back. -/
def Obligations.DecodeOfEncode : Prop :=
  ∀ i : Instr, i.wellFormed = true → decode (encode i) = .ok i

/-- R76, R78: a word decodes to a command only if it is that command's word, every bit of it. -/
def Obligations.EncodeOfDecode : Prop :=
  ∀ (c : Word) (i : Instr), decode c = .ok i → i.wellFormed = true ∧ encode i = c

/-- R83: the worked encodings decode to their commands, and the illegal examples decode to none. -/
def Obligations.WorkedEncodings : Prop :=
  (decode 0x00010201#32 = .ok (.add 2 0 1) ∧ decode 0x00077702#32 = .ok (.sub 7 7 7) ∧
   decode 0x00021003#32 = .ok (.mul 0 1 2) ∧ decode 0x00021304#32 = .ok (.div 3 1 2) ∧
   decode 0x00000107#32 = .ok (.scale 1 0) ∧ decode 0x00000008#32 = .ok (.fromint 0 0) ∧
   decode 0x00020109#32 = .ok (.ldk 1 2#4) ∧ decode 0x00080509#32 = .ok (.ldk 5 8#4) ∧
   decode 0x00003310#32 = .ok (.sqrt 3 3) ∧ decode 0x00065413#32 = .ok (.pow 4 5 6) ∧
   decode 0x00076514#32 = .ok (.ipow 5 6 7) ∧ decode 0x00001218#32 = .ok (.sin 2 1) ∧
   decode 0x00004022#32 = .ok (.rdec 4)) ∧
  (∀ c ∈ [0x00000000#32, 0x00010217#32, 0x00090109#32, 0x00001810#32, 0x00014022#32, 0x10010201#32],
    (decode c).toOption = none)

/-- R78 (and R74, R75, R79): a word is a command exactly when its OP value is in the opcode map and its other fixed bits are
zero, under the mask of the form, with K at most 8 for LDK; and an OP value has no command word exactly where R78 lists it. -/
def Obligations.LegalCommandWords : Prop :=
  (∀ c : Word, (∃ i, decode c = .ok i) ↔
    (∃ op ∈ [0x01#32, 0x02#32, 0x03#32, 0x04#32, 0x05#32, 0x06#32, 0x13#32, 0x14#32, 0x15#32], c &&& 0xFFF888FF#32 = op) ∨
    (∃ op ∈ [0x07#32, 0x08#32, 0x10#32, 0x11#32, 0x12#32, 0x18#32, 0x19#32, 0x1A#32, 0x1B#32, 0x1C#32, 0x1D#32],
      c &&& 0xFFFF88FF#32 = op) ∨
    (c &&& 0xFFF0F8FF#32 = 0x09#32 ∧ c.toNat / 2 ^ 16 % 16 ≤ 8) ∨
    (∃ op ∈ [0x20#32, 0x21#32, 0x22#32], c &&& 0xFFFF8FFF#32 = op)) ∧
  (∀ op : Nat, op < 256 → ((∀ c i, c.toNat % 256 = op → decode c ≠ .ok i) ↔
    op = 0x00 ∨ (0x0A ≤ op ∧ op ≤ 0x0F) ∨ op = 0x16 ∨ op = 0x17 ∨ op = 0x1E ∨ op = 0x1F ∨ 0x23 ≤ op))

/-! The step. -/

/-- R84, R85: when the executing command word decodes to a command and no event comes first, the step is that command's
meaning, and the step from `withFetchWord` is too. Model's choices: the event list (log entry 1), `withFetchWord` (log entry 5),
and that a reset further back than right behind a held access does not come first (log entry 15). -/
def Obligations.StepRunsDecodedCommand : Prop :=
  (∀ (s : State) (c : Word) (i : Instr), s.executing = some c → decode c = .ok i → NothingComesFirst s.pending →
    step s = exec i s) ∧
  (∀ (s : State) (nbits w : Nat) (i : Instr), decodeTableWord nbits w = some i →
    ∃ c, decode c = .ok i ∧
      step (s.withFetchWord nbits w) = exec i { s with executing := some c, inReset := false, pending := [] })

/-- R23, R25: a host write of a word to CMD, when its turn comes, makes that word the executing command and sets BUSY;
nothing else changes. -/
def Obligations.CmdWriteIssuesCommand : Prop :=
  ∀ (s : State) (v : Word) (rest : List HostEvent), s.executing = none → s.inReset = false →
    s.pending = .access ⟨Config.pBase + 0x08, 4, .write v⟩ :: rest →
    step s = .next { s with executing := some v, pending := rest } ∧
    (readWindow { s with executing := some v, pending := rest } 0x04).getLsbD 0 = true

/-- From R224: a command word that is no command's word raises ILL and nothing else; the block is then idle, ready for the
next command. The event list (log entry 1), and that a reset further back than right behind a held access does not come first
(log entry 15), are the model's choices. -/
def Obligations.IllegalCommandOnlyRaisesIll : Prop :=
  ∀ (s : State) (c : Word), s.executing = some c → NothingComesFirst s.pending →
    (¬ ∃ i : Instr, i.wellFormed = true ∧ encode i = c) →
    step s = .next { s with last := 0b1000#4, flags := s.flags ||| 0b1000#4, executing := none }

/-- R58: an access to the window that is not a STATUS read waits while a command executes; the command completes in the
step, the access still pending, and the access is then performed against the state the command left. A STATUS read is
answered, or the command completes, in the step. That a reset right behind the held access is a draw, and that one further back
does not come first, are the model's choices (log entries 9 and 15). -/
def Obligations.AccessesAreHeldWhileBusy : Prop :=
  ∀ (s : State) (c : Word) (a : Access) (rest : List HostEvent), s.executing = some c →
    s.pending = .access a :: rest → a.reaches = true →
    (a.isStatusRead = false → rest.head? ≠ some .assertReset →
      ∃ t, step s = .next t ∧ complete c s = .next t ∧ t.executing = none ∧ t.pending = s.pending ∧
        t.replies = s.replies ∧ step t = perform a { t with pending := rest }) ∧
    (a.isStatusRead = true →
      ∃ t, step s = .next t ∧ ((t.pending = rest ∧ t.replies.length = s.replies.length + 1) ∨ t.executing = none))

/-- R25: a STATUS read while a command executes returns BUSY = 1 with the previous command's flags, and the command goes
on; or the command completes and the read then returns BUSY = 0 with this command's flags. -/
def Obligations.StatusReadWhileBusy : Prop :=
  ∀ (s : State) (c : Word) (a : Access) (rest : List HostEvent), s.executing = some c → s.inReset = false →
    s.pending = .access a :: rest → a.isStatusRead = true →
    (∃ w : Word, step s = .next { s with pending := rest, replies := ⟨0x04, w⟩ :: s.replies, draws := s.draws + 1 } ∧
      w.getLsbD 0 = true ∧ w.extractLsb' 8 4 = s.last) ∨
    (∃ (t u : State) (w : Word), step s = .next t ∧ t.executing = none ∧ t.pending = s.pending ∧
      complete c { s with draws := s.draws + 1 } = .next t ∧
      step t = .next u ∧ u = { t with pending := rest, replies := ⟨0x04, w⟩ :: s.replies } ∧
      w.getLsbD 0 = false ∧ w.extractLsb' 8 4 = t.last)

/-- R25: BUSY goes from 0 to 1 only by an accepted CMD write; while it is 1 the executing command stays the same one. -/
def Obligations.BusyChangesOnlyAsStated : Prop :=
  (∀ s t : State, step s = .next t → s.executing = none →
    t.executing = none ∨ ∃ (a : Access) (v : Word) (rest : List HostEvent), s.pending = .access a :: rest ∧
      a.addr = Config.pBase + 0x08 ∧ a.bytes = 4 ∧ a.kind = .write v ∧ t.executing = some v) ∧
  (∀ (s t : State) (c : Word), step s = .next t → s.executing = some c → t.executing = some c ∨ t.executing = none)

/-- R50, R53: a read of a word offset, when its turn comes, answers the word of that register and changes nothing else. -/
def Obligations.IdleReadAnswersTheRegister : Prop :=
  ∀ (s : State) (off : Nat) (rest : List HostEvent), s.executing = none → s.inReset = false → off < 128 → off % 4 = 0 →
    s.pending = .access ⟨Config.pBase + off, 4, .read⟩ :: rest →
    step s = .next { s with pending := rest, replies := ⟨off, readWindow s off⟩ :: s.replies }

/-- R22, R24, R26, R28 to R31, R52: what each offset of the window reads as. -/
def Obligations.WindowReadMap : Prop :=
  ∀ s : State,
    readWindow s 0x00 = 0x544D5101#32 ∧
    ((readWindow s 0x04).getLsbD 0 = s.executing.isSome ∧ (readWindow s 0x04).extractLsb' 8 4 = s.last ∧
      (readWindow s 0x04).extractLsb' 1 7 = 0#7 ∧ (readWindow s 0x04).extractLsb' 12 20 = 0#20) ∧
    readWindow s 0x08 = 0#32 ∧
    (readWindow s 0x0C).toNat = s.flags.toNat ∧
    (∀ r : Reg, readWindow s (0x10 + 4 * r.val) = readReg s r) ∧
    (readWindow s 0x30).toNat = s.outlen.toNat ∧
    (∀ off ∈ [0x34, 0x38, 0x3C, 0x64, 0x68, 0x6C, 0x70, 0x74, 0x78, 0x7C], readWindow s off = 0#32) ∧
    (∀ (k : Fin 9) (j : Fin 4),
      (readWindow s (0x40 + 4 * k.val)).extractLsb' (8 * j.val) 8 = s.out[4 * k.val + j.val]'(by omega))

/-- R31, R32: a write to a read-only register (ID, STATUS, OUTLEN, OUT0..OUT8) or to a reserved offset is ignored: no side
effect, no flag. A reserved offset reads 0. -/
def Obligations.ReadOnlyWritesAreIgnored : Prop :=
  ∀ (s : State) (off : Nat) (v : Word) (rest : List HostEvent), s.executing = none → s.inReset = false →
    off ∈ [0x00, 0x04, 0x30, 0x34, 0x38, 0x3C] ∨ (0x40 ≤ off ∧ off < 0x80 ∧ off % 4 = 0) →
    s.pending = .access ⟨Config.pBase + off, 4, .write v⟩ :: rest →
    step s = .next { s with pending := rest } ∧
    (off ∈ [0x34, 0x38, 0x3C] ∨ 0x64 ≤ off → readWindow s off = 0#32)

/-- R26, R20, R53: a write to FLAGS clears exactly the flags whose bits are 1, and a write to Xi replaces Xi; nothing else
changes. -/
def Obligations.FlagsAndDataRegisterWrites : Prop :=
  (∀ (s : State) (v : Word) (rest : List HostEvent), s.executing = none → s.inReset = false →
    s.pending = .access ⟨Config.pBase + 0x0C, 4, .write v⟩ :: rest →
    ∃ f : FlagSet, step s = .next { s with pending := rest, flags := f } ∧
      ∀ b : Fin 4, f.getLsbD b.val = (s.flags.getLsbD b.val && !v.getLsbD b.val)) ∧
  (∀ (s : State) (r : Reg) (v : Word) (rest : List HostEvent), s.executing = none → s.inReset = false →
    s.pending = .access ⟨Config.pBase + 0x10 + 4 * r.val, 4, .write v⟩ :: rest →
    step s = .next { s with pending := rest, x := s.x.set r.val v })

/-- R51: an access to the window that is not 32 bits wide, or whose offset is not a multiple of 4, has no step. -/
def Obligations.NonWordAccessHasNoStep : Prop :=
  ∀ (s : State) (a : Access) (rest : List HostEvent), s.executing = none → s.inReset = false →
    s.pending = .access a :: rest → Config.pBase ≤ a.addr → a.addr < Config.pBase + 128 →
    a.bytes ≠ 4 ∨ (a.addr - Config.pBase) % 4 ≠ 0 →
    step s = .refused .accessNotAWord

/-- R50: an access outside the window does not reach the block, executing or not. -/
def Obligations.AccessOutsideTheWindow : Prop :=
  ∀ (s : State) (a : Access) (rest : List HostEvent), s.pending = .access a :: rest →
    (a.addr < Config.pBase ∨ Config.pBase + 128 ≤ a.addr) →
    step s = .next { s with pending := rest }

/-- R35: the value of every piece of state after reset, as the state and as a host reads it. -/
def Obligations.ResetValues : Prop :=
  (∀ r : Reg, readReg State.reset r = 0#32) ∧ State.reset.last = 0#4 ∧ State.reset.flags = 0#4 ∧
  State.reset.outlen = 0#6 ∧ (∀ k : Fin 36, State.reset.out[k.val] = 0#8) ∧ State.reset.executing = none ∧
  readWindow State.reset 0x00 = 0x544D5101#32 ∧ readWindow State.reset 0x04 = 0#32

/-- R251: a reset applied while a command is executing abandons it: the state is the reset state, and an access held at that
moment is not performed. Where an access is held and a reset follows it, the command completes first or the reset comes
first: that draw, and the reset input as a bit of State, are the model's choice (log entries 3 and 9). -/
def Obligations.ResetAbandonsTheCommand : Prop :=
  (∀ (s : State) (c : Word) (rest : List HostEvent), s.executing = some c → s.pending = .assertReset :: rest →
    step s = .next { State.reset with inReset := true, pending := rest, replies := s.replies, draws := s.draws }) ∧
  (∀ (s : State) (c : Word) (a : Access) (rest : List HostEvent), s.executing = some c →
    s.pending = .access a :: .assertReset :: rest → a.reaches = true → a.isStatusRead = false →
    step s = .next { State.reset with inReset := true, pending := rest, replies := s.replies, draws := s.draws + 1 } ∨
    ∃ t, step s = .next t ∧ complete c { s with draws := s.draws + 1 } = .next t ∧ t.pending = s.pending)

/-- R250: while reset is asserted a window access has no step; releasing it leaves the reset state, and the next access is
performed against that. Assertion and release as two events are the model's choice (log entry 9). -/
def Obligations.AccessesDuringReset : Prop :=
  (∀ (s : State) (a : Access) (rest : List HostEvent), s.executing = none → s.inReset = true →
    s.pending = .access a :: rest → a.reaches = true → step s = .refused .accessDuringReset) ∧
  (∀ (s : State) (rest : List HostEvent), s.executing = none → s.pending = .assertReset :: .releaseReset :: rest →
    Host.Core.run Sys2Proof.core 2 s =
      .next { State.reset with pending := rest, replies := s.replies, draws := s.draws })

/-! The arithmetic engine. -/

/-- R106 (and R105): ADD. -/
def Obligations.AddCommand : Prop :=
  ∀ (rd rs1 rs2 : Reg) (s : State),
    decode (formWord 0x01 rd.val rs1.val rs2.val) = .ok (.add rd rs1 rs2) ∧
    let v := (readReg s rs1).toInt + (readReg s rs2).toInt
    exec (.add rd rs1 rs2) s = .next (afterCommand rd (BitVec.ofInt 32 v) (Plain.overflow v) s)

/-- R108 (and R107): SUB. -/
def Obligations.SubCommand : Prop :=
  ∀ (rd rs1 rs2 : Reg) (s : State),
    decode (formWord 0x02 rd.val rs1.val rs2.val) = .ok (.sub rd rs1 rs2) ∧
    let v := (readReg s rs1).toInt - (readReg s rs2).toInt
    exec (.sub rd rs1 rs2) s = .next (afterCommand rd (BitVec.ofInt 32 v) (Plain.overflow v) s)

/-- R110 (and R109): MUL is the exact product rounded toward zero. -/
def Obligations.MulCommand : Prop :=
  ∀ (rd rs1 rs2 : Reg) (s : State),
    decode (formWord 0x03 rd.val rs1.val rs2.val) = .ok (.mul rd rs1 rs2) ∧
    let v := Plain.product (readReg s rs1).toInt (readReg s rs2).toInt
    exec (.mul rd rs1 rs2) s = .next (afterCommand rd (BitVec.ofInt 32 v) (Plain.overflow v) s)

/-- R114 (and R113): DIV is the quotient rounded toward zero, wrapped; by zero it is raw -1 or 1 with DZ. -/
def Obligations.DivCommand : Prop :=
  ∀ (rd rs1 rs2 : Reg) (s : State),
    decode (formWord 0x04 rd.val rs1.val rs2.val) = .ok (.div rd rs1 rs2) ∧
    let q := Plain.quotient (readReg s rs1).toInt (readReg s rs2).toInt
    exec (.div rd rs1 rs2) s = .next (afterCommand rd q.1 q.2 s)

/-- R116 (and R115): FMUL multiplies the operands floored to 1/256. -/
def Obligations.FmulCommand : Prop :=
  ∀ (rd rs1 rs2 : Reg) (s : State),
    decode (formWord 0x05 rd.val rs1.val rs2.val) = .ok (.fmul rd rs1 rs2) ∧
    let v := ((readReg s rs1).toInt / 256) * ((readReg s rs2).toInt / 256)
    exec (.fmul rd rs1 rs2) s = .next (afterCommand rd (BitVec.ofInt 32 v) (Plain.overflow v) s)

/-- R118 (and R117): FDIV divides the operands floored to 1/256; a divisor in [0, 255] gives the signed maximum with DZ. -/
def Obligations.FdivCommand : Prop :=
  ∀ (rd rs1 rs2 : Reg) (s : State),
    decode (formWord 0x06 rd.val rs1.val rs2.val) = .ok (.fdiv rd rs1 rs2) ∧
    let a := (readReg s rs1).toInt
    let b := (readReg s rs2).toInt
    let v := Int.tdiv (a / 256 * 65536) (b / 256)
    exec (.fdiv rd rs1 rs2) s =
      if 0 ≤ b ∧ b ≤ 255 then .next (afterCommand rd (if a < 0 then 0x80000001#32 else 0x7FFFFFFF#32) flagDZ s)
      else .next (afterCommand rd (BitVec.ofInt 32 v) (Plain.overflow v) s)

/-- R120 (and R119): SCALE is the floor of the base-2 logarithm; 0 gives -16 and a negative value 15, both with DOM. -/
def Obligations.ScaleCommand : Prop :=
  ∀ (rd rs1 : Reg) (s : State),
    decode (formWord 0x07 rd.val rs1.val 0) = .ok (.scale rd rs1) ∧
    ∃ e : Int, let a := (readReg s rs1).toInt
      exec (.scale rd rs1) s = .next (afterCommand rd (BitVec.ofInt 32 e) (if a ≤ 0 then flagDOM else 0#4) s) ∧
      (a < 0 → e = 15) ∧ (a = 0 → e = -16) ∧
      (0 < a → -16 ≤ e ∧ e ≤ 14 ∧ (2 : Int) ^ (e + 16).toNat ≤ a ∧ a < (2 : Int) ^ (e + 17).toNat)

/-- R103 (and R102): FROMINT shifts left by 16; OV outside [-32768, 32767]. -/
def Obligations.FromintCommand : Prop :=
  ∀ (rd rs1 : Reg) (s : State),
    decode (formWord 0x08 rd.val rs1.val 0) = .ok (.fromint rd rs1) ∧
    let a := (readReg s rs1).toInt
    exec (.fromint rd rs1) s =
      .next (afterCommand rd (BitVec.ofInt 32 (a * 65536)) (if -32768 ≤ a ∧ a ≤ 32767 then 0#4 else flagOV) s)

/-- R104 (and R73, R100): LDK loads the constant its index names; K of 9..15 is no command. -/
def Obligations.LdkCommand : Prop :=
  (∀ (rd : Reg) (k : Fin 9) (s : State),
    decode (formWord 0x09 rd.val 0 k.val) = .ok (.ldk rd (BitVec.ofNat 4 k.val)) ∧
    exec (.ldk rd (BitVec.ofNat 4 k.val)) s = .next (afterCommand rd
      ([0x00010000#32, 0x00020000#32, 0x0003243F#32, 0x00019220#32, 0x0004B65F#32, 0x0006487F#32, 0x0002B7E1#32,
        0x00016A0A#32, 0x0000B172#32][k.val]'(by simp)) 0#4 s)) ∧
  (∀ (rd : Reg) (k : Nat), 9 ≤ k → k ≤ 15 → (decode (formWord 0x09 rd.val 0 k)).toOption = none)

/-- R112: the restoring division is the floor quotient; by zero it is all ones. -/
def Obligations.LongDivisionIsFloorQuotient : Prop :=
  ∀ n d : Nat, n < 2 ^ 64 → d ≤ 2 ^ 31 →
    (0 < d → udiv64 n d = n / d) ∧ udiv64 n 0 = 2 ^ 64 - 1

/-- R122: normalization gives a mantissa in [1, 2) and raises nothing. -/
def Obligations.NormalizedMantissa : Prop :=
  ∀ x : Word, 0 < x.toInt →
    let s := fxScaleRaw x
    (fxNorm x).fl = 0#4 ∧ (fxNorm x).val.2 = s ∧
    (fxNorm x).val.1.toNat = (if 0 ≤ s then x.toNat / 2 ^ s.toNat else x.toNat * 2 ^ (-s).toNat) ∧
    65536 ≤ (fxNorm x).val.1.toNat ∧ (fxNorm x).val.1.toNat ≤ 131071

/-- R124: multiplying by ONE and dividing by ONE change nothing and raise nothing, for every word; and the two worked
identities. -/
def Obligations.IdentitiesOfOne : Prop :=
  (∀ x : Word, fxMul 0x00010000#32 x = .pure x ∧ fxDiv x 0x00010000#32 = .pure x) ∧
  fxMul (fxFromint 3#32).val (fxFromint 4#32).val = fxFromint 12#32 ∧
  fxDiv (fxFromint 10#32).val (fxFromint 4#32).val = .pure 0x00028000#32

/-! The transcendental engine. -/

/-- R144 (and R140 to R143): SQRT; it raises DOM for a negative operand and no other flag. -/
def Obligations.SqrtCommand : Prop :=
  ∀ (rd rs1 : Reg) (s : State),
    decode (formWord 0x10 rd.val rs1.val 0) = .ok (.sqrt rd rs1) ∧
    let a := (readReg s rs1).toInt
    exec (.sqrt rd rs1) s =
      if a < 0 then .next (afterCommand rd 0x80000000#32 flagDOM s)
      else if a = 0 ∨ a = 65536 then .next (afterCommand rd (readReg s rs1) 0#4 s)
      else .next (afterCommand rd (BitVec.ofNat 32 (Plain.sqrt a.toNat)) 0#4 s)

/-- R146 (and R145): LN; it raises DOM for an operand that is not positive and no other flag. -/
def Obligations.LnCommand : Prop :=
  ∀ (rd rs1 : Reg) (s : State),
    decode (formWord 0x11 rd.val rs1.val 0) = .ok (.ln rd rs1) ∧
    let a := (readReg s rs1).toInt
    exec (.ln rd rs1) s =
      if a ≤ 0 then .next (afterCommand rd 0x80000000#32 flagDOM s)
      else if a = 65536 then .next (afterCommand rd 0#32 0#4 s)
      else .next (afterCommand rd (BitVec.ofInt 32 (Plain.ln a.toNat)) 0#4 s)

/-- R148 (and R147): IPOW with an unsigned count, by squaring: the recursion of R147 holds for every count below 2^32. -/
def Obligations.IpowCommand : Prop :=
  (∀ (rd rs1 rs2 : Reg) (s : State),
    decode (formWord 0x14 rd.val rs1.val rs2.val) = .ok (.ipow rd rs1 rs2) ∧
    let r := fxIpow (readReg s rs1) (readReg s rs2).toNat
    exec (.ipow rd rs1 rs2) s = .next (afterCommand rd r.val r.fl s)) ∧
  (∀ (b : Word) (n : Nat), n < 2 ^ 32 →
    fxIpow b n =
      if n = 0 then .pure 0x00010000#32
      else (fxIpow b (n / 2)).andThen fun h => (fxMul h h).andThen fun h2 =>
        if n % 2 = 1 then fxMul h2 b else .pure h2)

/-- R150 (and R149): FPOW with the low 16 bits of the exponent word: nested roots, multiplied in where the bit is set, up
to the lowest set bit. DOM is raised exactly for a negative base and a fraction that is not 0. A single set bit at position
j takes 16 - j roots (C2). -/
def Obligations.FpowCommand : Prop :=
  (∀ (rd rs1 rs2 : Reg) (s : State),
    decode (formWord 0x15 rd.val rs1.val rs2.val) = .ok (.fpow rd rs1 rs2) ∧
    let r := Plain.fpow (readReg s rs1) ((readReg s rs2).toNat % 65536)
    exec (.fpow rd rs1 rs2) s = .next (afterCommand rd r.val.1 r.fl s) ∧
    (r.fl.getLsbD 2 = true ↔ (readReg s rs1).toInt < 0 ∧ (readReg s rs2).toNat % 65536 ≠ 0)) ∧
  (∀ (b : Word) (j : Fin 16), (fxFpow b (2 ^ j.val)).val = (fun r => (fxSqrt r).val)^[16 - j.val] b)

/-- R152 (and R151): POW splits the magnitude of the exponent, multiplies the two powers, and takes the reciprocal for a
negative exponent. DZ is raised exactly when the exponent is negative and the positive case is 0, DOM exactly when the base
is negative and the fraction of the exponent is not 0. -/
def Obligations.PowCommand : Prop :=
  ∀ (rd rs1 rs2 : Reg) (s : State),
    decode (formWord 0x13 rd.val rs1.val rs2.val) = .ok (.pow rd rs1 rs2) ∧
    let b := readReg s rs1
    let p := (readReg s rs2).toInt
    let m := p.natAbs
    let i := fxIpow b (m / 65536)
    let f := fxFpow b (m % 65536)
    let r := fxMul i.val f.val
    let d := fxDiv 0x00010000#32 r.val
    ∃ fl : FlagSet,
      exec (.pow rd rs1 rs2) s = .next (afterCommand rd (if p < 0 then d.val else r.val) fl s) ∧
      fl = i.fl ||| f.fl ||| r.fl ||| (if p < 0 then d.fl else 0#4) ∧
      (fl.getLsbD 1 = true ↔ p < 0 ∧ r.val = 0#32) ∧
      (fl.getLsbD 2 = true ↔ b.toInt < 0 ∧ m % 65536 ≠ 0)

/-- R154 (and R153): EXP is the general power of E. It raises no DOM, raises DZ exactly when the operand is negative and the
positive case is 0, and raises OV from 11.0 on, in either sign, and not at 10.0. -/
def Obligations.ExpCommand : Prop :=
  (∀ (rd rs1 : Reg) (s : State),
    decode (formWord 0x12 rd.val rs1.val 0) = .ok (.exp rd rs1) ∧
    let x := (readReg s rs1).toInt
    let r := fxPow 0x0002B7E1#32 (readReg s rs1)
    let positive := fxMul (fxIpow 0x0002B7E1#32 (x.natAbs / 65536)).val (fxFpow 0x0002B7E1#32 (x.natAbs % 65536)).val
    exec (.exp rd rs1) s = .next (afterCommand rd r.val r.fl s) ∧
    r.fl.getLsbD 2 = false ∧
    (r.fl.getLsbD 1 = true ↔ x < 0 ∧ positive.val = 0#32) ∧
    (720896 ≤ x.natAbs → r.fl.getLsbD 0 = true)) ∧
  (fxPow 0x0002B7E1#32 0x000A0000#32).fl = 0#4 ∧ (fxPow 0x0002B7E1#32 0xFFF60000#32).fl = 0#4

/-- R159 (and R155 to R158): SIN, which raises no flag. -/
def Obligations.SinCommand : Prop :=
  ∀ (rd rs1 : Reg) (s : State),
    decode (formWord 0x18 rd.val rs1.val 0) = .ok (.sin rd rs1) ∧
    exec (.sin rd rs1) s = .next (afterCommand rd (BitVec.ofInt 32 (Plain.sin (readReg s rs1).toInt)) 0#4 s)

/-- R161 (and R160): COS, with OV exactly for an operand below -2147380703 raw. -/
def Obligations.CosCommand : Prop :=
  ∀ (rd rs1 : Reg) (s : State),
    decode (formWord 0x19 rd.val rs1.val 0) = .ok (.cos rd rs1) ∧
    let a := (readReg s rs1).toInt
    exec (.cos rd rs1) s = .next (afterCommand rd (BitVec.ofInt 32 (Plain.cos a)) (Plain.cosFlags a) s)

/-- R162: TAN is sine over cosine by the exact divide. -/
def Obligations.TanCommand : Prop :=
  ∀ (rd rs1 : Reg) (s : State),
    decode (formWord 0x1A rd.val rs1.val 0) = .ok (.tan rd rs1) ∧
    let a := (readReg s rs1).toInt
    let q := Plain.quotient (Plain.sin a) (Plain.cos a)
    exec (.tan rd rs1) s = .next (afterCommand rd q.1 (q.2 ||| Plain.cosFlags a) s)

/-- R163: CSC is 1 over sine by the exact divide. -/
def Obligations.CscCommand : Prop :=
  ∀ (rd rs1 : Reg) (s : State),
    decode (formWord 0x1B rd.val rs1.val 0) = .ok (.csc rd rs1) ∧
    let a := (readReg s rs1).toInt
    let q := Plain.quotient 65536 (Plain.sin a)
    exec (.csc rd rs1) s = .next (afterCommand rd q.1 q.2 s)

/-- R164: SEC is 1 over cosine by the exact divide. -/
def Obligations.SecCommand : Prop :=
  ∀ (rd rs1 : Reg) (s : State),
    decode (formWord 0x1C rd.val rs1.val 0) = .ok (.sec rd rs1) ∧
    let a := (readReg s rs1).toInt
    let q := Plain.quotient 65536 (Plain.cos a)
    exec (.sec rd rs1) s = .next (afterCommand rd q.1 (q.2 ||| Plain.cosFlags a) s)

/-- R165: COT is cosine over sine by the exact divide. -/
def Obligations.CotCommand : Prop :=
  ∀ (rd rs1 : Reg) (s : State),
    decode (formWord 0x1D rd.val rs1.val 0) = .ok (.cot rd rs1) ∧
    let a := (readReg s rs1).toInt
    let q := Plain.quotient (Plain.cos a) (Plain.sin a)
    exec (.cot rd rs1) s = .next (afterCommand rd q.1 (q.2 ||| Plain.cosFlags a) s)

/-- R152, V6: the general power with exponent TWO is the exact square, word and flags, for every base. -/
def Obligations.PowerTwoIsSquare : Prop :=
  ∀ (rd rs1 rs2 : Reg) (s : State), readReg s rs2 = 0x00020000#32 →
    exec (.pow rd rs1 rs2) s = exec (.mul rd rs1 rs1) s

/-! The renderers. -/

/-- R193 (and R190 to R192): RBIN. -/
def Obligations.RbinCommand : Prop :=
  ∀ (rs1 : Reg) (s : State),
    decode (formWord 0x20 0 rs1.val 0) = .ok (.rbin rs1) ∧
    let a := (readReg s rs1).toInt
    let m := a.natAbs
    ∃ t, exec (.rbin rs1) s = .next t ∧
      t = { s with out := t.out, outlen := 34#6, last := 0#4, executing := none } ∧
      t.out[0] = (if a < 0 then 0x2D#8 else 0x20#8) ∧
      (∀ j : Fin 16, t.out[1 + j.val]'(by omega) = if m.testBit (31 - j.val) then 0x31#8 else 0x30#8) ∧
      t.out[17] = 0x2E#8 ∧
      (∀ j : Fin 16, t.out[18 + j.val]'(by omega) = if m.testBit (15 - j.val) then 0x31#8 else 0x30#8) ∧
      t.out[34] = 0#8 ∧ t.out[35] = 0#8

/-- R195 (and R190, R191, R194): RHEX. -/
def Obligations.RhexCommand : Prop :=
  ∀ (rs1 : Reg) (s : State),
    decode (formWord 0x21 0 rs1.val 0) = .ok (.rhex rs1) ∧
    let a := (readReg s rs1).toInt
    let m := a.natAbs
    let digit := fun n : Nat => if n < 10 then BitVec.ofNat 8 (0x30 + n) else BitVec.ofNat 8 (0x37 + n)
    ∃ t, exec (.rhex rs1) s = .next t ∧
      t = { s with out := t.out, outlen := 10#6, last := 0#4, executing := none } ∧
      t.out[0] = (if a < 0 then 0x2D#8 else 0x20#8) ∧
      (∀ j : Fin 4, t.out[1 + j.val]'(by omega) = digit (m / 2 ^ (28 - 4 * j.val) % 16)) ∧
      t.out[5] = 0x2E#8 ∧
      (∀ j : Fin 4, t.out[6 + j.val]'(by omega) = digit (m / 2 ^ (12 - 4 * j.val) % 16)) ∧
      (∀ k : Fin 36, 10 ≤ k.val → t.out[k.val] = 0#8)

/-- R200 (and R190, R191, R196 to R199, R201): RDEC. The integer digits I have no leading zeros; the fraction digits F are the
12 digits of the exact fraction truncated, without their trailing zeros Z, at least one digit kept. -/
def Obligations.RdecCommand : Prop :=
  ∀ (rs1 : Reg) (s : State),
    decode (formWord 0x22 0 rs1.val 0) = .ok (.rdec rs1) ∧
    let a := (readReg s rs1).toInt
    let m := a.natAbs
    let number := fun ds : List Nat => ds.foldl (fun n d => 10 * n + d) 0
    let ascii := fun ds : List Nat => ds.map fun d => BitVec.ofNat 8 (0x30 + d)
    ∃ (I F Z : List Nat) (t : State), exec (.rdec rs1) s = .next t ∧
      (I ≠ [] ∧ (∀ d ∈ I, d < 10) ∧ number I = m / 65536 ∧ (I.length = 1 ∨ I.head? ≠ some 0)) ∧
      (F ≠ [] ∧ (∀ d ∈ F, d < 10) ∧ (∀ d ∈ Z, d = 0) ∧ (F ++ Z).length = 12 ∧
        number (F ++ Z) = m % 65536 * 10 ^ 12 / 65536 ∧ (F.length = 1 ∨ F.getLast? ≠ some 0)) ∧
      t = { s with out := t.out, outlen := BitVec.ofNat 6 (2 + I.length + F.length), last := 0#4, executing := none } ∧
      ∀ k : Fin 36, t.out[k.val] =
        ((if a < 0 then 0x2D#8 else 0x20#8) :: ascii I ++ 0x2E#8 :: ascii F).getD k.val 0#8

/-- R201: the carry never fires, and the fraction digits are the exact fraction truncated. -/
def Obligations.DecimalCarryNeverFires : Prop :=
  decTable.sum = 999984741210 ∧
  ∀ ip fp : Nat, fp < 65536 → decFrac ip fp = (ip, fp * 10 ^ 12 / 65536)

/-! Frames, invariants and whole-machine rules. -/

/-- R85, R222: a command with a destination changes that register, LAST and FLAGS (by OR) and clears BUSY; every other word
of the window reads as before, and the model's own fields stay. It raises no ILL. -/
def Obligations.DestinationCommandFrame : Prop :=
  ∀ (i : Instr) (rd : Reg) (s : State), destOf i = some rd → i.wellFormed = true →
    ∃ t, exec i s = .next t ∧ t.executing = none ∧ t.flags = s.flags ||| t.last ∧ t.last.getLsbD 3 = false ∧
      (∀ r : Reg, r ≠ rd → readReg t r = readReg s r) ∧ t.out = s.out ∧ t.outlen = s.outlen ∧
      t.inReset = s.inReset ∧ t.pending = s.pending ∧ t.replies = s.replies ∧ t.draws = s.draws ∧
      ∀ off : Nat, off < 128 → off % 4 = 0 → off ≠ 0x04 → off ≠ 0x0C → off ≠ 0x10 + 4 * rd.val →
        readWindow t off = readWindow s off

/-- R28, R191: a render changes OUT, OUTLEN and LAST and clears BUSY, and raises no flag; every data register, FLAGS and every
other word of the window read as before. -/
def Obligations.RenderFrame : Prop :=
  ∀ (i : Instr) (s : State), destOf i = none →
    ∃ t, exec i s = .next t ∧ t.executing = none ∧ t.flags = s.flags ∧ t.last = 0#4 ∧ t.x = s.x ∧
      t.inReset = s.inReset ∧ t.pending = s.pending ∧ t.replies = s.replies ∧ t.draws = s.draws ∧
      ∀ off : Nat, off < 128 → off % 4 = 0 → off ≠ 0x04 → off ≠ 0x30 → ¬ (0x40 ≤ off ∧ off < 0x64) →
        readWindow t off = readWindow s off

/-- R191, R202, R29, R225: every step keeps the invariant: the buffer holds one text of a possible length and NULs after it,
and LAST is ILL alone or has no ILL. Its last clause, that while reset is asserted every register has its reset value and no
command executes, is the model's choice (log entry 9): R250 and R251 say what applying reset does, and R260 leaves the state
while reset is asserted unsaid. -/
def Obligations.StepKeepsInvariant : Prop :=
  ∀ s t : State, Inv s → step s = .next t → Inv t

/-- R35: the state after reset meets the invariant. -/
def Obligations.ResetMeetsInvariant : Prop := Inv State.reset

/-- From R27: LAST and FLAGS change only at a command's completion, at a host write to FLAGS (which leaves LAST) and at reset.
The reset input as a bit of State (log entry 9), and that a step applies a reset only as the first or second pending event (log
entry 15), are the model's choices. -/
def Obligations.FlagsChangeOnlyAsStated : Prop :=
  ∀ s t : State, step s = .next t → t.last ≠ s.last ∨ t.flags ≠ s.flags →
    (∃ c, s.executing = some c ∧ t.executing = none ∧
      (complete c s = .next t ∨ complete c { s with draws := s.draws + 1 } = .next t)) ∨
    (s.executing = none ∧ t.last = s.last ∧ ∃ (a : Access) (v : Word) (rest : List HostEvent),
      s.pending = .access a :: rest ∧ a.addr = Config.pBase + 0x0C ∧ a.bytes = 4 ∧ a.kind = .write v) ∨
    (HostEvent.assertReset ∈ s.pending.take 2 ∧ t.inReset = true ∧ t.last = 0#4 ∧ t.flags = 0#4)

/-- From R28, R29, R253: OUT and OUTLEN change only in a step in which BUSY falls while a render command is the executing one,
and at reset. The reset input as a bit of State (log entry 9), and that a step applies a reset only as the first or second
pending event (log entry 15), are the model's choices. -/
def Obligations.OutputChangesOnlyByRender : Prop :=
  ∀ s t : State, step s = .next t → t.out ≠ s.out ∨ t.outlen ≠ s.outlen →
    (∃ c r, s.executing = some c ∧ t.executing = none ∧
      (decode c = .ok (.rbin r) ∨ decode c = .ok (.rhex r) ∨ decode c = .ok (.rdec r))) ∨
    (HostEvent.assertReset ∈ s.pending.take 2 ∧ t.inReset = true ∧ t.out = State.reset.out ∧ t.outlen = 0#6)

/-- From R20: a data register changes only in a step in which BUSY falls while a command that names it as its destination is
the executing one, at a host write to it, and at reset. The reset input as a bit of State (log entry 9), and that a step applies
a reset only as the first or second pending event (log entry 15), are the model's choices. -/
def Obligations.DataRegisterChangesOnlyAsStated : Prop :=
  ∀ (s t : State) (r : Reg), step s = .next t → readReg t r ≠ readReg s r →
    (∃ c i, s.executing = some c ∧ t.executing = none ∧ decode c = .ok i ∧ destOf i = some r) ∨
    (s.executing = none ∧ ∃ (a : Access) (v : Word) (rest : List HostEvent), s.pending = .access a :: rest ∧
      a.addr = Config.pBase + 0x10 + 4 * r.val ∧ a.bytes = 4 ∧ a.kind = .write v ∧ readReg t r = v) ∨
    (HostEvent.assertReset ∈ s.pending.take 2 ∧ t.inReset = true ∧ readReg t r = 0#32)

/-- BUSY always falls (from R25, R58, R259 and R251): from every state some run leads to a state with no command executing,
whatever the draws; the command has completed, or a pending reset has abandoned it. The bound, at most one step more than there
are pending events, is the model's choice of what one step does (log entries 1 and 12). -/
def Obligations.BusyAlwaysFalls : Prop :=
  ∀ s : State, ∃ (n : Nat) (t : State), n ≤ s.pending.length + 1 ∧
    Host.Core.run Sys2Proof.core n s = .next t ∧ t.executing = none

/-- R57, R54: the block behaves as the sequential composition of the accesses it receives, each CMD write's command
complete before the next access, but for what STATUS reads return. -/
def Obligations.RunIsSequentialComposition : Prop :=
  ∀ s u : State, s.executing = none → (∀ e ∈ s.pending, ∃ a, e = .access a) →
    sequential s.pending { s with pending := [] } = .next u →
    ∃ (n : Nat) (t : State), n ≤ 2 * s.pending.length ∧ Host.Core.run Sys2Proof.core n s = .next t ∧
      t.pending = [] ∧ t.executing = none ∧ SameBlock t u

/-- R254: a host may write CMD and read the result register at once: the read returns the command's result. -/
def Obligations.ReadAfterCommandReturnsResult : Prop :=
  ∀ (s : State) (c : Word) (i : Instr) (rd : Reg), s.executing = none → s.inReset = false →
    decode c = .ok i → destOf i = some rd →
    s.pending = [.access ⟨Config.pBase + 0x08, 4, .write c⟩, .access ⟨Config.pBase + 0x10 + 4 * rd.val, 4, .read⟩] →
    ∃ t u, exec i s = .next u ∧ Host.Core.run Sys2Proof.core 3 s = .next t ∧
      t.replies = ⟨0x10 + 4 * rd.val, readReg u rd⟩ :: s.replies ∧ t.x = u.x ∧ t.flags = u.flags ∧
      t.pending = [] ∧ t.executing = none
end

