-- ==== Sys2Proof/Laws/State.lean ====
section
/-! SUPPORT. One lemma per field per update, so that no proof unfolds a record update. -/

namespace Sys2Proof.Machine

variable (s : State) (r : Reg) (v : Word) (fl : FlagSet) (text : List Byte)

/-! Writing a data register changes that register alone. -/

@[simp] theorem writeReg_x : (writeReg s r v).x = s.x.set r.val v := rfl
@[simp] theorem writeReg_last : (writeReg s r v).last = s.last := rfl
@[simp] theorem writeReg_flags : (writeReg s r v).flags = s.flags := rfl
@[simp] theorem writeReg_outlen : (writeReg s r v).outlen = s.outlen := rfl
@[simp] theorem writeReg_out : (writeReg s r v).out = s.out := rfl
@[simp] theorem writeReg_executing : (writeReg s r v).executing = s.executing := rfl
@[simp] theorem writeReg_inReset : (writeReg s r v).inReset = s.inReset := rfl
@[simp] theorem writeReg_pending : (writeReg s r v).pending = s.pending := rfl
@[simp] theorem writeReg_replies : (writeReg s r v).replies = s.replies := rfl
@[simp] theorem writeReg_draws : (writeReg s r v).draws = s.draws := rfl

@[simp] theorem readReg_writeReg_same : readReg (writeReg s r v) r = v := by
  simp [readReg]

theorem readReg_writeReg_other {q : Reg} (h : q ≠ r) : readReg (writeReg s r v) q = readReg s q := by
  have hne : r.val ≠ q.val := fun e => h (Fin.ext e.symm)
  simp [readReg, Vector.getElem_set_ne _ _ hne]

/-! A commit changes LAST, FLAGS and BUSY. -/

@[simp] theorem commit_x : (commit fl s).x = s.x := rfl
@[simp] theorem commit_last : (commit fl s).last = fl := rfl
@[simp] theorem commit_flags : (commit fl s).flags = s.flags ||| fl := rfl
@[simp] theorem commit_outlen : (commit fl s).outlen = s.outlen := rfl
@[simp] theorem commit_out : (commit fl s).out = s.out := rfl
@[simp] theorem commit_executing : (commit fl s).executing = none := rfl
@[simp] theorem commit_inReset : (commit fl s).inReset = s.inReset := rfl
@[simp] theorem commit_pending : (commit fl s).pending = s.pending := rfl
@[simp] theorem commit_replies : (commit fl s).replies = s.replies := rfl
@[simp] theorem commit_draws : (commit fl s).draws = s.draws := rfl
@[simp] theorem readReg_commit : readReg (commit fl s) r = readReg s r := rfl

/-! A render's text changes OUT and OUTLEN. -/

@[simp] theorem renderText_x : (renderText text s).x = s.x := rfl
@[simp] theorem renderText_last : (renderText text s).last = s.last := rfl
@[simp] theorem renderText_flags : (renderText text s).flags = s.flags := rfl
@[simp] theorem renderText_outlen : (renderText text s).outlen = BitVec.ofNat 6 text.length := rfl
@[simp] theorem renderText_executing : (renderText text s).executing = s.executing := rfl
@[simp] theorem renderText_inReset : (renderText text s).inReset = s.inReset := rfl
@[simp] theorem renderText_pending : (renderText text s).pending = s.pending := rfl
@[simp] theorem renderText_replies : (renderText text s).replies = s.replies := rfl
@[simp] theorem renderText_draws : (renderText text s).draws = s.draws := rfl
@[simp] theorem readReg_renderText : readReg (renderText text s) r = readReg s r := rfl

@[simp] theorem renderText_out_getElem (k : Nat) (h : k < 36) :
    (renderText text s).out[k] = text.getD k 0#8 := by
  simp [renderText]

/-! Reset puts every register at its reset value and keeps the model's own fields. -/

@[simp] theorem applyReset_x : (applyReset s).x = State.reset.x := rfl
@[simp] theorem applyReset_last : (applyReset s).last = 0#4 := rfl
@[simp] theorem applyReset_flags : (applyReset s).flags = 0#4 := rfl
@[simp] theorem applyReset_outlen : (applyReset s).outlen = 0#6 := rfl
@[simp] theorem applyReset_out : (applyReset s).out = State.reset.out := rfl
@[simp] theorem applyReset_executing : (applyReset s).executing = none := rfl
@[simp] theorem applyReset_inReset : (applyReset s).inReset = true := rfl
@[simp] theorem applyReset_pending : (applyReset s).pending = s.pending := rfl
@[simp] theorem applyReset_replies : (applyReset s).replies = s.replies := rfl
@[simp] theorem applyReset_draws : (applyReset s).draws = s.draws := rfl

@[simp] theorem releaseReset_x : (releaseReset s).x = s.x := rfl
@[simp] theorem releaseReset_last : (releaseReset s).last = s.last := rfl
@[simp] theorem releaseReset_flags : (releaseReset s).flags = s.flags := rfl
@[simp] theorem releaseReset_outlen : (releaseReset s).outlen = s.outlen := rfl
@[simp] theorem releaseReset_out : (releaseReset s).out = s.out := rfl
@[simp] theorem releaseReset_executing : (releaseReset s).executing = s.executing := rfl
@[simp] theorem releaseReset_inReset : (releaseReset s).inReset = false := rfl
@[simp] theorem releaseReset_pending : (releaseReset s).pending = s.pending := rfl

@[simp] theorem countDraw_x : (countDraw s).x = s.x := rfl
@[simp] theorem countDraw_last : (countDraw s).last = s.last := rfl
@[simp] theorem countDraw_flags : (countDraw s).flags = s.flags := rfl
@[simp] theorem countDraw_outlen : (countDraw s).outlen = s.outlen := rfl
@[simp] theorem countDraw_out : (countDraw s).out = s.out := rfl
@[simp] theorem countDraw_executing : (countDraw s).executing = s.executing := rfl
@[simp] theorem countDraw_inReset : (countDraw s).inReset = s.inReset := rfl
@[simp] theorem countDraw_pending : (countDraw s).pending = s.pending := rfl
@[simp] theorem countDraw_replies : (countDraw s).replies = s.replies := rfl
@[simp] theorem countDraw_draws : (countDraw s).draws = s.draws + 1 := rfl

/-! The states a command leaves. -/

theorem commit_writeReg : commit fl (writeReg s r v) = afterCommand r v fl s := rfl
theorem illegalCommand_eq : illegalCommand s = afterIllegal s := rfl

end Sys2Proof.Machine
end

