-- ==== Sys2Proof/Laws/Flags.lean ====
section
/-! SUPPORT. The flag accumulator: the value of a composition does not depend on flags, its flags are those of its parts. -/

namespace Sys2Proof.Machine

variable {α β γ : Type}

@[simp] theorem pure_val (v : α) : (Fx.pure v).val = v := rfl
@[simp] theorem pure_fl (v : α) : (Fx.pure v).fl = 0#4 := rfl

@[simp] theorem andThen_val (m : Fx α) (f : α → Fx β) : (m.andThen f).val = (f m.val).val := rfl
@[simp] theorem andThen_fl (m : Fx α) (f : α → Fx β) : (m.andThen f).fl = m.fl ||| (f m.val).fl := rfl

@[simp] theorem pure_andThen (v : α) (f : α → Fx β) : (Fx.pure v).andThen f = f v := by
  simp [Fx.andThen, Fx.pure]

@[simp] theorem andThen_pure (m : Fx α) : m.andThen Fx.pure = m := by
  simp [Fx.andThen, Fx.pure]

theorem andThen_assoc (m : Fx α) (f : α → Fx β) (g : β → Fx γ) :
    (m.andThen f).andThen g = m.andThen fun v => (f v).andThen g := by
  simp [Fx.andThen, BitVec.or_assoc]

/-- Two answers are equal when their values and their flags are. -/
theorem Fx.ext_iff' (m n : Fx α) : m = n ↔ m.val = n.val ∧ m.fl = n.fl := by
  cases m; cases n; simp

theorem fits32_iff (v : Int) : fits32 v = true ↔ -2147483648 ≤ v ∧ v ≤ 2147483647 := by
  simp [fits32]

@[simp] theorem narrow_val (v : Int) : (narrow v).val = BitVec.ofInt 32 v := rfl
@[simp] theorem narrow_fl (v : Int) : (narrow v).fl = Plain.overflow v := by
  by_cases h : -2147483648 ≤ v ∧ v ≤ 2147483647 <;> simp [narrow, raiseIf, Plain.overflow, fits32, h]

/-- A result that fits keeps its value and raises nothing. -/
theorem narrow_fits {v : Int} (h : -2147483648 ≤ v ∧ v ≤ 2147483647) : narrow v = ⟨BitVec.ofInt 32 v, 0#4⟩ := by
  rw [Fx.ext_iff']; simp [Plain.overflow, h]

/-- The integer a word that was narrowed reads as, where it fits. -/
theorem toInt_ofInt_fits {v : Int} (h : -2147483648 ≤ v ∧ v ≤ 2147483647) : (BitVec.ofInt 32 v).toInt = v := by
  rw [BitVec.toInt_ofInt]; simp only [Int.bmod]; omega

/-- The range of `int32(w)` (R10). -/
theorem toInt_range (w : Word) : -2147483648 ≤ w.toInt ∧ w.toInt ≤ 2147483647 := by
  have h1 := BitVec.toInt_lt (x := w)
  have h2 := BitVec.le_toInt (x := w)
  norm_num at h1 h2
  omega

@[simp] theorem ofInt_toInt (w : Word) : BitVec.ofInt 32 w.toInt = w := by simp

end Sys2Proof.Machine
end

