-- ==== Sys2Proof/Laws/Commands.lean ====
section
/-! SUPPORT. What the operand forms, `exec` and the steps can do, each said once. -/

namespace Sys2Proof.Machine

/-! The operand forms. -/

theorem runRRR_eq (f : Word → Word → Fx Word) (rd rs1 rs2 : Reg) (s : State) :
    runRRR f rd rs1 rs2 s =
      .next (afterCommand rd (f (readReg s rs1) (readReg s rs2)).val (f (readReg s rs1) (readReg s rs2)).fl s) := rfl

theorem runRR_eq (f : Word → Fx Word) (rd rs1 : Reg) (s : State) :
    runRR f rd rs1 s = .next (afterCommand rd (f (readReg s rs1)).val (f (readReg s rs1)).fl s) := rfl

theorem runRK_some {f : BitVec 4 → Option Word} {k : BitVec 4} {v : Word} (h : f k = some v) (rd : Reg) (s : State) :
    runRK f rd k s = .next (afterCommand rd v 0#4 s) := by
  unfold runRK; rw [h]; rfl

theorem runRK_none {f : BitVec 4 → Option Word} {k : BitVec 4} (h : f k = none) (rd : Reg) (s : State) :
    runRK f rd k s = .next (afterIllegal s) := by
  unfold runRK; rw [h]; rfl

theorem runS_eq (f : Word → List Byte) (rs1 : Reg) (s : State) :
    runS f rs1 s = .next (commit 0#4 (renderText (f (readReg s rs1)) s)) := rfl

/-- A constant index that is well formed names a constant, and the others name none (R73). -/
theorem namedConstant_isSome (k : BitVec 4) : (namedConstant k).isSome = constantIndexOk k := by
  revert k; decide

/-- Everything `exec` can do: write one register and raise flags, or write a text, or refuse an index as illegal. What it
writes depends on the data registers alone. -/
theorem exec_uniform (i : Instr) :
    (∃ rd, destOf i = some rd ∧ ∃ f : Vector Word 8 → Fx Word,
      ∀ s, exec i s = .next (afterCommand rd (f s.x).val (f s.x).fl s)) ∨
    (destOf i = none ∧ ∃ g : Vector Word 8 → List Byte, ∀ s, exec i s = .next (commit 0#4 (renderText (g s.x) s))) ∨
    (i.wellFormed = false ∧ ∀ s, exec i s = .next (afterIllegal s)) := by
  cases i with
  | ldk rd k =>
    cases h : namedConstant k with
    | some v => exact .inl ⟨rd, rfl, fun _ => .pure v, fun s => runRK_some h rd s⟩
    | none =>
      refine .inr (.inr ⟨?_, fun s => runRK_none h rd s⟩)
      have := namedConstant_isSome k
      rw [h] at this; exact this.symm
  | rbin r => exact .inr (.inl ⟨rfl, fun x => binText x[r.val], fun _ => rfl⟩)
  | rhex r => exact .inr (.inl ⟨rfl, fun x => hexText x[r.val], fun _ => rfl⟩)
  | rdec r => exact .inr (.inl ⟨rfl, fun x => decText x[r.val], fun _ => rfl⟩)
  | add rd a b => exact .inl ⟨rd, rfl, fun x => fxAdd x[a.val] x[b.val], fun _ => rfl⟩
  | sub rd a b => exact .inl ⟨rd, rfl, fun x => fxSub x[a.val] x[b.val], fun _ => rfl⟩
  | mul rd a b => exact .inl ⟨rd, rfl, fun x => fxMul x[a.val] x[b.val], fun _ => rfl⟩
  | div rd a b => exact .inl ⟨rd, rfl, fun x => fxDiv x[a.val] x[b.val], fun _ => rfl⟩
  | fmul rd a b => exact .inl ⟨rd, rfl, fun x => fxFmul x[a.val] x[b.val], fun _ => rfl⟩
  | fdiv rd a b => exact .inl ⟨rd, rfl, fun x => fxFdiv x[a.val] x[b.val], fun _ => rfl⟩
  | pow rd a b => exact .inl ⟨rd, rfl, fun x => fxPow x[a.val] x[b.val], fun _ => rfl⟩
  | ipow rd a b => exact .inl ⟨rd, rfl, fun x => fxIpow x[a.val] x[b.val].toNat, fun _ => rfl⟩
  | fpow rd a b => exact .inl ⟨rd, rfl, fun x => fxFpow x[a.val] (x[b.val].toNat % 2 ^ 16), fun _ => rfl⟩
  | scale rd a => exact .inl ⟨rd, rfl, fun x => fxScale x[a.val], fun _ => rfl⟩
  | fromint rd a => exact .inl ⟨rd, rfl, fun x => fxFromint x[a.val], fun _ => rfl⟩
  | sqrt rd a => exact .inl ⟨rd, rfl, fun x => fxSqrt x[a.val], fun _ => rfl⟩
  | ln rd a => exact .inl ⟨rd, rfl, fun x => fxLn x[a.val], fun _ => rfl⟩
  | exp rd a => exact .inl ⟨rd, rfl, fun x => fxExp x[a.val], fun _ => rfl⟩
  | sin rd a => exact .inl ⟨rd, rfl, fun x => fxSin x[a.val], fun _ => rfl⟩
  | cos rd a => exact .inl ⟨rd, rfl, fun x => fxCos x[a.val], fun _ => rfl⟩
  | tan rd a => exact .inl ⟨rd, rfl, fun x => fxTan x[a.val], fun _ => rfl⟩
  | csc rd a => exact .inl ⟨rd, rfl, fun x => fxCsc x[a.val], fun _ => rfl⟩
  | sec rd a => exact .inl ⟨rd, rfl, fun x => fxSec x[a.val], fun _ => rfl⟩
  | cot rd a => exact .inl ⟨rd, rfl, fun x => fxCot x[a.val], fun _ => rfl⟩

/-- The same at one state. -/
theorem exec_cases (i : Instr) (s : State) :
    (∃ rd v fl, destOf i = some rd ∧ exec i s = .next (afterCommand rd v fl s)) ∨
    (∃ text, destOf i = none ∧ exec i s = .next (commit 0#4 (renderText text s))) ∨
    (i.wellFormed = false ∧ exec i s = .next (afterIllegal s)) := by
  obtain ⟨rd, hd, f, h⟩ | ⟨hd, g, h⟩ | ⟨hw, h⟩ := exec_uniform i
  · exact .inl ⟨rd, _, _, hd, h s⟩
  · exact .inr (.inl ⟨_, hd, h s⟩)
  · exact .inr (.inr ⟨hw, h s⟩)

/-- A commit leaves the model's own fields, the reset input and no command in progress; so does every command. -/
theorem exec_next (i : Instr) (s : State) :
    ∃ t, exec i s = .next t ∧ t.executing = none ∧ t.inReset = s.inReset ∧ t.pending = s.pending ∧
      t.replies = s.replies ∧ t.draws = s.draws := by
  obtain ⟨rd, v, fl, -, h⟩ | ⟨text, -, h⟩ | ⟨-, h⟩ := exec_cases i s <;>
    exact ⟨_, h, rfl, rfl, rfl, rfl, rfl⟩

/-! The completion step and the steps around it. -/

theorem complete_ok {c : Word} {i : Instr} (h : decode c = .ok i) (s : State) : complete c s = exec i s := by
  simp [complete, h]

theorem complete_error {c : Word} {e : Illegal} (h : decode c = .error e) (s : State) :
    complete c s = .next (afterIllegal s) := by
  simp [complete, h, illegalCommand_eq]

/-- A command always completes, and the model's own fields stay as they are. -/
theorem complete_next (c : Word) (s : State) :
    ∃ t, complete c s = .next t ∧ t.executing = none ∧ t.inReset = s.inReset ∧ t.pending = s.pending ∧
      t.replies = s.replies ∧ t.draws = s.draws := by
  cases h : decode c with
  | ok i => rw [complete_ok h]; exact exec_next i s
  | error e => exact ⟨_, complete_error h s, rfl, rfl, rfl, rfl, rfl⟩

theorem step_idle {s : State} (h : s.executing = none) : step s = idleStep s := by simp [step, h]

theorem step_busy {s : State} {c : Word} (h : s.executing = some c) : step s = busyStep c s := by simp [step, h]

/-- Everything a busy step can do (R25, R58, R251). -/
theorem busyStep_cases (c : Word) (s : State) :
    busyStep c s = complete c s ∨ busyStep c s = complete c (countDraw s) ∨
    (∃ rest, busyStep c s = .next { s with pending := rest } ∧ ∃ a, s.pending = .access a :: rest ∧ a.reaches = false) ∨
    (∃ rest, busyStep c s = .next (statusWhileBusy rest s) ∧ ∃ a, s.pending = .access a :: rest ∧ a.isStatusRead = true) ∨
    (∃ rest, busyStep c s = .next (releaseReset { s with pending := rest }) ∧ s.pending = .releaseReset :: rest) ∨
    (∃ rest, busyStep c s = .next (applyReset { s with pending := rest }) ∧ s.pending = .assertReset :: rest) ∨
    (∃ a later, busyStep c s = .next (applyReset { countDraw s with pending := later }) ∧
      s.pending = .access a :: .assertReset :: later) := by
  unfold busyStep
  split
  · exact .inl rfl
  · exact .inr (.inr (.inr (.inr (.inr (.inl ⟨_, rfl, ‹_›⟩)))))
  · exact .inr (.inr (.inr (.inr (.inl ⟨_, rfl, ‹_›⟩))))
  · split
    · exact .inr (.inr (.inl ⟨_, rfl, _, ‹_›, ‹_›⟩))
    · split
      · split
        · exact .inr (.inl rfl)
        · exact .inr (.inr (.inr (.inl ⟨_, rfl, _, ‹_›, ‹_›⟩)))
      · split
        · split
          · exact .inr (.inl rfl)
          · exact .inr (.inr (.inr (.inr (.inr (.inr ⟨_, _, rfl, ‹_›⟩)))))
        · exact .inl rfl

/-- A busy block always goes on. -/
theorem busyStep_next (c : Word) (s : State) : ∃ t, busyStep c s = .next t := by
  obtain h | h | ⟨_, h, _⟩ | ⟨_, h, _⟩ | ⟨_, h, _⟩ | ⟨_, h, _⟩ | ⟨_, _, h, _⟩ := busyStep_cases c s
  · obtain ⟨t, ht, _⟩ := complete_next c s; exact ⟨t, h.trans ht⟩
  · obtain ⟨t, ht, _⟩ := complete_next c (countDraw s); exact ⟨t, h.trans ht⟩
  all_goals exact ⟨_, h⟩

/-- Everything `perform` can do: nothing outside the window, a refusal, a read, or a write (R50, R51, R250). -/
theorem perform_cases (a : Access) (s : State) :
    (a.reaches = false ∧ perform a s = .next s) ∨
    (a.reaches = true ∧ s.inReset = true ∧ perform a s = .refused .accessDuringReset) ∨
    (a.reaches = true ∧ s.inReset = false ∧ a.isWord = false ∧ perform a s = .refused .accessNotAWord) ∨
    (a.reaches = true ∧ s.inReset = false ∧ a.isWord = true ∧ a.kind = .read ∧
      perform a s = .next { s with replies := ⟨a.offset, readWindow s a.offset⟩ :: s.replies }) ∨
    (∃ v, a.reaches = true ∧ s.inReset = false ∧ a.isWord = true ∧ a.kind = .write v ∧
      perform a s = .next (writeWindow s a.offset v)) := by
  unfold perform
  cases h1 : a.reaches <;> cases h2 : s.inReset <;> cases h3 : a.isWord <;> cases h4 : a.kind <;> simp

/-! Runs. -/

@[simp] theorem run_zero (s : State) : Host.Core.run Sys2Proof.core 0 s = .next s := rfl

/-- A run goes on from the state its first step answers. -/
theorem run_next {s t : State} (h : step s = .next t) (n : Nat) :
    Host.Core.run Sys2Proof.core (n + 1) s = Host.Core.run Sys2Proof.core n t := by
  have h' : Sys2Proof.core.step s = .next t := h
  simp only [Host.Core.run, h']

/-! The window. -/

/-- A word packed from four bytes gives them back, the lowest first (R52). -/
theorem packed_byte (b0 b1 b2 b3 : Byte) (j : Fin 4) :
    ((b3 ++ b2 ++ b1 ++ b0).setWidth 32 : Word).extractLsb' (8 * j.val) 8 = [b0, b1, b2, b3][j.val] := by
  fin_cases j <;> ext i hi <;>
    simp only [BitVec.getElem_extractLsb', BitVec.getLsbD_setWidth, BitVec.getLsbD_append] <;>
    interval_cases i <;> simp [BitVec.getLsbD_eq_getElem]

/-- The bytes of a word of the output buffer (R28, R52). -/
theorem outWord_byte (s : State) (k : Fin 9) (j : Fin 4) :
    (outWord s k).extractLsb' (8 * j.val) 8 = s.out[4 * k.val + j.val]'(by omega) := by
  rw [outWord, packed_byte]
  fin_cases j <;> rfl

/-- Everything a write of the window can do (R20, R23, R26, R31, R32), for a word offset inside it. -/
theorem writeWindow_cases (s : State) (off : Nat) (v : Word) (h : off < 128) (h4 : off % 4 = 0) :
    (off = 0x08 ∧ writeWindow s off v = { s with executing := some v }) ∨
    (off = 0x0C ∧ writeWindow s off v = { s with flags := s.flags &&& ~~~ (v.setWidth 4) }) ∨
    (∃ r : Reg, off = 0x10 + 4 * r.val ∧ writeWindow s off v = writeReg s r v) ∨
    ((off = 0x00 ∨ off = 0x04 ∨ 0x30 ≤ off) ∧ writeWindow s off v = s) := by
  by_cases h1 : off = 0x08
  · exact .inl ⟨h1, by subst h1; rfl⟩
  by_cases h2 : off = 0x0C
  · exact .inr (.inl ⟨h2, by subst h2; rfl⟩)
  by_cases h3 : 0x10 ≤ off ∧ off < 0x30
  · refine .inr (.inr (.inl ⟨⟨(off - 0x10) / 4, by omega⟩, by simp only; omega, ?_⟩))
    have e : (off - 0x10) / 4 % 8 = (off - 0x10) / 4 := by omega
    have n0 : off ≠ 0x00 := by omega
    have n4 : off ≠ 0x04 := by omega
    simp [writeWindow, windowReg, n0, n4, h1, h2, h3.2, e]
  · refine .inr (.inr (.inr ⟨by omega, ?_⟩))
    have hw : windowReg off ≠ .cmd ∧ windowReg off ≠ .flags ∧ ∀ r, windowReg off ≠ .data r := by
      unfold windowReg
      have n30 : off < 0x30 → off = 0x00 ∨ off = 0x04 := by omega
      refine ⟨?_, ?_, fun r => ?_⟩ <;> split_ifs <;> simp_all
    unfold writeWindow
    split <;> simp_all

/-- The access's offset is inside the window where it reaches the block (R50). -/
theorem Access.offset_lt {a : Access} (h : a.reaches = true) :
    a.offset < 128 ∧ a.addr = Config.pBase + a.offset := by
  simp [Access.reaches] at h
  simp only [Access.offset]
  omega

theorem Access.isWord_iff (a : Access) : a.isWord = true ↔ a.bytes = 4 ∧ a.offset % 4 = 0 := by
  simp [Access.isWord]

theorem Access.isStatusRead_iff (a : Access) :
    a.isStatusRead = true ↔ a.reaches = true ∧ a.isWord = true ∧ a.offset = 4 ∧ a.kind = .read := by
  simp [Access.isStatusRead, and_assoc]

/-- The fields of the STATUS word (R24). -/
theorem statusWord_fields (s : State) :
    (statusWord s).getLsbD 0 = s.executing.isSome ∧ (statusWord s).extractLsb' 1 7 = 0#7 ∧
    (statusWord s).extractLsb' 8 4 = s.last ∧ (statusWord s).extractLsb' 12 20 = 0#20 := by
  unfold statusWord
  generalize s.executing.isSome = b
  generalize s.last = l
  revert b l
  decide

/-- Everything an idle step can do when it answers a next state: wait, reset, release, pass an access that is not the block's,
answer a read, or do a write. -/
theorem idleStep_cases {s t : State} (h : idleStep s = .next t) :
    (s.pending = [] ∧ t = s) ∨
    (∃ rest, s.pending = .assertReset :: rest ∧ t = applyReset { s with pending := rest }) ∨
    (∃ rest, s.pending = .releaseReset :: rest ∧ t = releaseReset { s with pending := rest }) ∨
    (∃ a rest, s.pending = .access a :: rest ∧ a.reaches = false ∧ t = { s with pending := rest }) ∨
    (∃ a rest, s.pending = .access a :: rest ∧ a.reaches = true ∧ a.isWord = true ∧ s.inReset = false ∧ a.kind = .read ∧
      t = { s with pending := rest, replies := ⟨a.offset, readWindow s a.offset⟩ :: s.replies }) ∨
    (∃ a rest v, s.pending = .access a :: rest ∧ a.reaches = true ∧ a.isWord = true ∧ s.inReset = false ∧
      a.kind = .write v ∧ t = writeWindow { s with pending := rest } a.offset v) := by
  unfold idleStep at h
  split at h
  · exact .inl ⟨‹_›, by simpa using h.symm⟩
  · rename_i e rest hp
    cases e with
    | assertReset => exact .inr (.inl ⟨rest, hp, by simpa [serve] using h.symm⟩)
    | releaseReset => exact .inr (.inr (.inl ⟨rest, hp, by simpa [serve] using h.symm⟩))
    | access a =>
      simp only [serve] at h
      obtain ⟨h1, h2⟩ | ⟨_, _, h2⟩ | ⟨_, _, _, h2⟩ | ⟨h1, h3, h4, h5, h2⟩ | ⟨v, h1, h3, h4, h5, h2⟩ :=
        perform_cases a { s with pending := rest } <;> rw [h2] at h
      · exact .inr (.inr (.inr (.inl ⟨a, rest, hp, h1, by simpa using h.symm⟩)))
      · simp at h
      · simp at h
      · exact .inr (.inr (.inr (.inr (.inl ⟨a, rest, hp, h1, h4, h3, h5, (Host.Outcome.next.inj h).symm⟩))))
      · exact .inr (.inr (.inr (.inr (.inr ⟨a, rest, v, hp, h1, h4, h3, h5, (Host.Outcome.next.inj h).symm⟩))))

end Sys2Proof.Machine
end

