-- ==== Sys2Proof/Laws/PerInstr.lean ====
section
/-! SUPPORT. Per command: the encoded word has the mask and match of the command's row in spec/opcode_table.json. -/

namespace Sys2Proof.Laws.TableWord

/-- The mask of a command's row in spec/opcode_table.json. -/
def mask : Instr → Word
  | .add _ _ _ | .sub _ _ _ | .mul _ _ _ | .div _ _ _ | .fmul _ _ _ | .fdiv _ _ _ => 0xFFF888FF#32
  | .pow _ _ _ | .ipow _ _ _ | .fpow _ _ _ => 0xFFF888FF#32
  | .scale _ _ | .fromint _ _ | .sqrt _ _ | .ln _ _ | .exp _ _ => 0xFFFF88FF#32
  | .sin _ _ | .cos _ _ | .tan _ _ | .csc _ _ | .sec _ _ | .cot _ _ => 0xFFFF88FF#32
  | .ldk _ _ => 0xFFF0F8FF#32
  | .rbin _ | .rhex _ | .rdec _ => 0xFFFF8FFF#32

/-- The match of a command's row in spec/opcode_table.json. -/
def matchWord : Instr → Word
  | .add _ _ _ => 0x00000001#32
  | .sub _ _ _ => 0x00000002#32
  | .mul _ _ _ => 0x00000003#32
  | .div _ _ _ => 0x00000004#32
  | .fmul _ _ _ => 0x00000005#32
  | .fdiv _ _ _ => 0x00000006#32
  | .scale _ _ => 0x00000007#32
  | .fromint _ _ => 0x00000008#32
  | .ldk _ _ => 0x00000009#32
  | .sqrt _ _ => 0x00000010#32
  | .ln _ _ => 0x00000011#32
  | .exp _ _ => 0x00000012#32
  | .pow _ _ _ => 0x00000013#32
  | .ipow _ _ _ => 0x00000014#32
  | .fpow _ _ _ => 0x00000015#32
  | .sin _ _ => 0x00000018#32
  | .cos _ _ => 0x00000019#32
  | .tan _ _ => 0x0000001A#32
  | .csc _ _ => 0x0000001B#32
  | .sec _ _ => 0x0000001C#32
  | .cot _ _ => 0x0000001D#32
  | .rbin _ => 0x00000020#32
  | .rhex _ => 0x00000021#32
  | .rdec _ => 0x00000022#32

/-- The encoded word matches its row. -/
abbrev Statement (i : Instr) : Prop := encode i &&& mask i = matchWord i

/-- A mask distributes over the fields of a word. -/
theorem mask_or (a b m : Word) : (a ||| b) &&& m = (a &&& m) ||| (b &&& m) := by
  ext i hi; simp [Bool.and_or_distrib_right]

/-! The fields a form uses stand outside its mask, and the ones it does not use are zero. -/

theorem rrr_fields : ∀ rd rs1 rs2 : Reg, wordRRR 0#8 rd rs1 rs2 &&& 0xFFF888FF#32 = 0#32 := by decide +kernel
theorem rr_fields : ∀ rd rs1 : Reg, wordRR 0#8 rd rs1 &&& 0xFFFF88FF#32 = 0#32 := by decide +kernel
theorem rk_fields : ∀ (rd : Reg) (k : BitVec 4), wordRK 0#8 rd k &&& 0xFFF0F8FF#32 = 0#32 := by decide +kernel
theorem s_fields : ∀ rs1 : Reg, wordS 0#8 rs1 &&& 0xFFFF8FFF#32 = 0#32 := by decide +kernel

/-- A word is its OP value with its other fields. -/
theorem commandWord_op (op : BitVec 8) (rd rs1 rs2 : BitVec 4) :
    commandWord op rd rs1 rs2 = op.setWidth 32 ||| commandWord 0#8 rd rs1 rs2 := by
  simp [commandWord, BitVec.or_assoc]

/-- The masked word is the masked OP value, once the fields are masked away. -/
theorem masked {op : BitVec 8} {rd rs1 rs2 : BitVec 4} {m : Word} (h : commandWord 0#8 rd rs1 rs2 &&& m = 0#32) :
    commandWord op rd rs1 rs2 &&& m = op.setWidth 32 &&& m := by
  rw [commandWord_op, mask_or, h, BitVec.or_zero]

theorem add (rd rs1 rs2 : Reg) : Statement (.add rd rs1 rs2) := masked (rrr_fields _ _ _)
theorem sub (rd rs1 rs2 : Reg) : Statement (.sub rd rs1 rs2) := masked (rrr_fields _ _ _)
theorem mul (rd rs1 rs2 : Reg) : Statement (.mul rd rs1 rs2) := masked (rrr_fields _ _ _)
theorem div (rd rs1 rs2 : Reg) : Statement (.div rd rs1 rs2) := masked (rrr_fields _ _ _)
theorem fmul (rd rs1 rs2 : Reg) : Statement (.fmul rd rs1 rs2) := masked (rrr_fields _ _ _)
theorem fdiv (rd rs1 rs2 : Reg) : Statement (.fdiv rd rs1 rs2) := masked (rrr_fields _ _ _)
theorem scale (rd rs1 : Reg) : Statement (.scale rd rs1) := masked (rr_fields _ _)
theorem fromint (rd rs1 : Reg) : Statement (.fromint rd rs1) := masked (rr_fields _ _)
theorem ldk (rd : Reg) (k : BitVec 4) : Statement (.ldk rd k) := masked (rk_fields _ _)
theorem sqrt (rd rs1 : Reg) : Statement (.sqrt rd rs1) := masked (rr_fields _ _)
theorem ln (rd rs1 : Reg) : Statement (.ln rd rs1) := masked (rr_fields _ _)
theorem exp (rd rs1 : Reg) : Statement (.exp rd rs1) := masked (rr_fields _ _)
theorem pow (rd rs1 rs2 : Reg) : Statement (.pow rd rs1 rs2) := masked (rrr_fields _ _ _)
theorem ipow (rd rs1 rs2 : Reg) : Statement (.ipow rd rs1 rs2) := masked (rrr_fields _ _ _)
theorem fpow (rd rs1 rs2 : Reg) : Statement (.fpow rd rs1 rs2) := masked (rrr_fields _ _ _)
theorem sin (rd rs1 : Reg) : Statement (.sin rd rs1) := masked (rr_fields _ _)
theorem cos (rd rs1 : Reg) : Statement (.cos rd rs1) := masked (rr_fields _ _)
theorem tan (rd rs1 : Reg) : Statement (.tan rd rs1) := masked (rr_fields _ _)
theorem csc (rd rs1 : Reg) : Statement (.csc rd rs1) := masked (rr_fields _ _)
theorem sec (rd rs1 : Reg) : Statement (.sec rd rs1) := masked (rr_fields _ _)
theorem cot (rd rs1 : Reg) : Statement (.cot rd rs1) := masked (rr_fields _ _)
theorem rbin (rs1 : Reg) : Statement (.rbin rs1) := masked (s_fields _)
theorem rhex (rs1 : Reg) : Statement (.rhex rs1) := masked (s_fields _)
theorem rdec (rs1 : Reg) : Statement (.rdec rs1) := masked (s_fields _)

end Sys2Proof.Laws.TableWord
end

