-- ==== Sys2Proof/Tests/Slice0.lean ====
section
/-! SUPPORT. The model's own tests. Expected values are the spec's: 30_encoding.md R83, 95_test_vectors.md parts 1 and 2, or
the corner cases of the command rules. After them, for each statement with hypotheses, a named state and operands that meet
them. -/

namespace Sys2Proof.Machine.Tests

/-! ### Well-formedness: the one check, and a term it refuses -/

theorem test_wellFormed_refuses_constant_nine : (Instr.ldk 0 9#4).wellFormed = false := by decide
theorem test_wellFormed_accepts_constant_eight : (Instr.ldk 0 8#4).wellFormed = true := by decide

/-! ### Decoding: one word per command, from 95_test_vectors.md 2.1 -/

theorem test_decode_add : decode 0x00032101#32 = .ok (.add 1 2 3) := by decide
theorem test_decode_sub : decode 0x00032102#32 = .ok (.sub 1 2 3) := by decide
theorem test_decode_mul : decode 0x00032103#32 = .ok (.mul 1 2 3) := by decide
theorem test_decode_div : decode 0x00032104#32 = .ok (.div 1 2 3) := by decide
theorem test_decode_fmul : decode 0x00032105#32 = .ok (.fmul 1 2 3) := by decide
theorem test_decode_fdiv : decode 0x00032106#32 = .ok (.fdiv 1 2 3) := by decide
theorem test_decode_scale : decode 0x00002107#32 = .ok (.scale 1 2) := by decide
theorem test_decode_fromint : decode 0x00002108#32 = .ok (.fromint 1 2) := by decide
theorem test_decode_ldk : decode 0x00070109#32 = .ok (.ldk 1 7#4) := by decide
theorem test_decode_sqrt : decode 0x00002110#32 = .ok (.sqrt 1 2) := by decide
theorem test_decode_ln : decode 0x00002111#32 = .ok (.ln 1 2) := by decide
theorem test_decode_exp : decode 0x00002112#32 = .ok (.exp 1 2) := by decide
theorem test_decode_pow : decode 0x00032113#32 = .ok (.pow 1 2 3) := by decide
theorem test_decode_ipow : decode 0x00032114#32 = .ok (.ipow 1 2 3) := by decide
theorem test_decode_fpow : decode 0x00032115#32 = .ok (.fpow 1 2 3) := by decide
theorem test_decode_sin : decode 0x00002118#32 = .ok (.sin 1 2) := by decide
theorem test_decode_cos : decode 0x00002119#32 = .ok (.cos 1 2) := by decide
theorem test_decode_tan : decode 0x0000211A#32 = .ok (.tan 1 2) := by decide
theorem test_decode_csc : decode 0x0000211B#32 = .ok (.csc 1 2) := by decide
theorem test_decode_sec : decode 0x0000211C#32 = .ok (.sec 1 2) := by decide
theorem test_decode_cot : decode 0x0000211D#32 = .ok (.cot 1 2) := by decide
theorem test_decode_rbin : decode 0x00002020#32 = .ok (.rbin 2) := by decide
theorem test_decode_rhex : decode 0x00002021#32 = .ok (.rhex 2) := by decide
theorem test_decode_rdec : decode 0x00002022#32 = .ok (.rdec 2) := by decide

/-- The illegal words of 95_test_vectors.md 2.1. -/
theorem test_decode_rejects_illegal_words :
    [0x00000000#32, 0x000000FF#32, 0x0000000A#32, 0x00010217#32, 0x0000001E#32, 0x00000023#32].map decode =
      List.replicate 6 (.error .reservedOp) ∧
    [0x00090109#32, 0x000F0109#32].map decode = List.replicate 2 (.error .constantIndex) ∧
    [0x00001009#32, 0x00001810#32, 0x00080201#32, 0x00010110#32, 0x00014022#32, 0x00000122#32, 0x10010201#32,
      0x00100201#32].map decode = List.replicate 8 (.error .badShape) := by decide

theorem test_decodeTableWord_add : decodeTableWord 32 0x00032101 = some (.add 1 2 3) := by decide
theorem test_encode_examples :
    encode (.add 2 0 1) = 0x00010201#32 ∧ encode (.ldk 1 2#4) = 0x00020109#32 ∧ encode (.sin 2 1) = 0x00001218#32 ∧
    encode (.rdec 4) = 0x00004022#32 := by decide

/-! ### The commands, on operands in X0 and X1, into X2 -/

def opState (a b : Word) : State := writeReg (writeReg State.reset 0 a) 1 b

/-- The value of X2 and the flags after a command. -/
def answer (i : Instr) (a b : Word) : Option (Word × FlagSet) :=
  match exec i (opState a b) with
  | .next t => some (readReg t 2, t.last)
  | .fault _ | .refused _ => none

/-- The word OUTk and OUTLEN after a render of X0. -/
def rendered (i : Instr) (a : Word) (k : Fin 9) : Option (Word × Nat) :=
  match exec i (opState a 0#32) with
  | .next t => some (outWord t k, t.outlen.toNat)
  | .fault _ | .refused _ => none

theorem test_add_wraps : answer (.add 2 0 1) 0x7FFFFFFF#32 0x00000001#32 = some (0x80000000#32, flagOV) := by decide
theorem test_add_plain : answer (.add 2 0 1) 0x00010000#32 0x00018000#32 = some (0x00028000#32, 0#4) := by decide
theorem test_sub_wraps : answer (.sub 2 0 1) 0x00000000#32 0x80000000#32 = some (0x80000000#32, flagOV) := by decide
theorem test_sub_order : answer (.sub 2 0 1) 0x00010000#32 0x00020000#32 = some (0xFFFF0000#32, 0#4) := by decide
theorem test_mul_toward_zero : answer (.mul 2 0 1) 0xFFFFFFFD#32 0x00008000#32 = some (0xFFFFFFFF#32, 0#4) := by decide
theorem test_mul_most_negative : answer (.mul 2 0 1) 0x80000000#32 0xFFFF0000#32 = some (0x80000000#32, flagOV) := by decide
theorem test_div_toward_zero : answer (.div 2 0 1) 0xFFFF0000#32 0x00030000#32 = some (0xFFFFAAAB#32, 0#4) := by
  decide
theorem test_div_by_zero : answer (.div 2 0 1) 0xFFFF0000#32 0x00000000#32 = some (0x00000001#32, flagDZ) := by
  decide
theorem test_fmul_floors : answer (.fmul 2 0 1) 0xFFFFFFFF#32 0xFFFFFFFF#32 = some (0x00000001#32, 0#4) := by decide
theorem test_fmul_wraps : answer (.fmul 2 0 1) 0x80000000#32 0x80000000#32 = some (0x00000000#32, flagOV) := by decide
theorem test_fdiv_sentinel : answer (.fdiv 2 0 1) 0x00010000#32 0x000000FF#32 = some (0x7FFFFFFF#32, flagDZ) := by decide
theorem test_fdiv_small_negative : answer (.fdiv 2 0 1) 0x00010000#32 0xFFFFFFFF#32 = some (0xFF000000#32, 0#4) := by decide
theorem test_scale_zero : answer (.scale 2 0) 0x00000000#32 0#32 = some (0xFFFFFFF0#32, flagDOM) := by decide
theorem test_scale_top : answer (.scale 2 0) 0x7FFFFFFF#32 0#32 = some (0x0000000E#32, 0#4) := by decide
theorem test_fromint_bounds : answer (.fromint 2 0) 0xFFFF8000#32 0#32 = some (0x80000000#32, 0#4) ∧
    answer (.fromint 2 0) 0x00008000#32 0#32 = some (0x80000000#32, flagOV) := by decide
theorem test_ldk_constants : (List.range 9).map (fun k => answer (.ldk 2 (BitVec.ofNat 4 k)) 0#32 0#32) =
    [0x00010000#32, 0x00020000#32, 0x0003243F#32, 0x00019220#32, 0x0004B65F#32, 0x0006487F#32, 0x0002B7E1#32,
      0x00016A0A#32, 0x0000B172#32].map fun w => some (w, 0#4) := by decide
theorem test_sqrt_odd_negative_scale : answer (.sqrt 2 0) 0x00002000#32 0#32 = some (0x00005A82#32, 0#4) := by
  decide +kernel
theorem test_sqrt_negative : answer (.sqrt 2 0) 0xFFFFFFFF#32 0#32 = some (0x80000000#32, flagDOM) := by decide
theorem test_ln_three : answer (.ln 2 0) 0x00030000#32 0#32 = some (0x0001181C#32, 0#4) := by decide
theorem test_ln_zero : answer (.ln 2 0) 0x00000000#32 0#32 = some (0x80000000#32, flagDOM) := by decide
theorem test_ipow_negative_base : answer (.ipow 2 0 1) 0xFFFE0000#32 3#32 = some (0xFFF80000#32, 0#4) := by decide
theorem test_ipow_overflow : answer (.ipow 2 0 1) 0x00020000#32 15#32 = some (0x80000000#32, flagOV) := by decide +kernel
theorem test_fpow_all_bits : answer (.fpow 2 0 1) 0x00020000#32 0x0000FFFF#32 = some (0x0001FFD9#32, 0#4) := by
  decide +kernel
theorem test_fpow_ignores_high_bits : answer (.fpow 2 0 1) 0x00020000#32 0x00018000#32 = some (0x00016A0A#32, 0#4) := by
  decide +kernel
theorem test_pow_negative_exponent : answer (.pow 2 0 1) 0x00040000#32 0xFFFF8000#32 = some (0x00008000#32, 0#4) := by
  decide +kernel
theorem test_pow_two_flags : answer (.pow 2 0 1) 0x00020000#32 0x80000000#32 = some (0xFFFFFFFF#32, flagOV ||| flagDZ) := by
  decide +kernel
theorem test_exp_half : answer (.exp 2 0) 0x00008000#32 0#32 = some (0x0001A612#32, 0#4) := by decide +kernel
theorem test_exp_overflow : answer (.exp 2 0) 0xFFF50000#32 0#32 = some (0xFFFFFFF5#32, flagOV) := by decide +kernel
theorem test_sin_four_quadrants :
    answer (.sin 2 0) 0x00010000#32 0#32 = some (0x0000D76B#32, 0#4) ∧
    answer (.sin 2 0) 0x00020000#32 0#32 = some (0x0000E8C8#32, 0#4) ∧
    answer (.sin 2 0) 0x00040000#32 0#32 = some (0xFFFF3E41#32, 0#4) ∧
    answer (.sin 2 0) 0x00050000#32 0#32 = some (0xFFFF0A85#32, 0#4) := by decide
theorem test_sin_boundaries :
    answer (.sin 2 0) 0x00019220#32 0#32 = some (0x00010000#32, 0#4) ∧
    answer (.sin 2 0) 0xFFFE6DE0#32 0#32 = some (0xFFFF0000#32, 0#4) ∧
    answer (.sin 2 0) 0x0006487F#32 0#32 = some (0x00000000#32, 0#4) := by decide
theorem test_cos_pi : answer (.cos 2 0) 0x0003243F#32 0#32 = some (0xFFFF0009#32, 0#4) := by decide
theorem test_cos_wraps : answer (.cos 2 0) 0x80000000#32 0#32 = some (0x000062A3#32, flagOV) := by decide
theorem test_tan_minus_one : answer (.tan 2 0) 0xFFFF0000#32 0#32 = some (0xFFFE714D#32, 0#4) := by decide
theorem test_tan_pole : answer (.tan 2 0) 0x00019220#32 0#32 = some (0xFFFFFFFF#32, flagDZ) := by decide
theorem test_csc_one : answer (.csc 2 0) 0x00010000#32 0#32 = some (0x0001303A#32, 0#4) := by decide
theorem test_csc_pole : answer (.csc 2 0) 0x0003243F#32 0#32 = some (0xFFFFFFFF#32, flagDZ) := by decide
theorem test_sec_pi : answer (.sec 2 0) 0x0003243F#32 0#32 = some (0xFFFEFFF7#32, 0#4) := by decide
theorem test_sec_pole : answer (.sec 2 0) 0x00019220#32 0#32 = some (0xFFFFFFFF#32, flagDZ) := by decide
theorem test_cot_one : answer (.cot 2 0) 0x00010000#32 0#32 = some (0x0000A460#32, 0#4) := by decide
theorem test_cot_quarter : answer (.cot 2 0) 0x0000C910#32 0#32 = some (0x00010000#32, 0#4) := by decide
theorem test_rbin_words : rendered (.rbin 0) 0x7FFFFFFF#32 0 = some (0x31313020#32, 34) ∧
    rendered (.rbin 0) 0x00010000#32 4 = some (0x30302E31#32, 34) := by decide
theorem test_rhex_words : rendered (.rhex 0) 0x80000000#32 0 = some (0x3030382D#32, 10) ∧
    rendered (.rhex 0) 0x7FFFFFFF#32 1 = some (0x46462E46#32, 10) := by decide
theorem test_rdec_words : rendered (.rdec 0) 0x80000000#32 1 = some (0x302E3836#32, 8) ∧
    rendered (.rdec 0) 0x7FFF0001#32 4 = some (0x00393837#32, 19) := by decide
theorem test_rdec_literal_cases : rendered (.rdec 0) 0x00010000#32 0 = some (0x302E3120#32, 4) ∧
    rendered (.rdec 0) 0xFFFD8000#32 0 = some (0x352E322D#32, 4) := by decide

/-- `ADD x1, x1, x1` doubles x1: the operands are read before the destination is written (R85). -/
theorem test_destination_is_source :
    exec (.add 1 1 1) (opState 0#32 0x00010000#32) = .next (opState 0#32 0x00020000#32) := by rfl

/-! ### The window, the flags and the step -/

theorem test_flags_write_one_to_clear :
    (writeWindow { State.reset with flags := 0xF#4 } 0x0C 0x00000005#32).flags = 0xA#4 := by decide
theorem test_status_word : readWindow { State.reset with last := 0b0011#4, executing := some 0#32 } 0x04 = 0x00000301#32 := by
  decide
theorem test_id_is_constant : readWindow (writeWindow State.reset 0x00 0x12345678#32) 0x00 = 0x544D5101#32 := by decide

/-- FLAGS = OV, then a division by zero: STATUS 0x200, FLAGS 3 (95_test_vectors.md 2.2). -/
theorem test_flags_accumulate :
    (match exec (.div 2 0 1) { State.reset with flags := flagOV } with
     | .next t => some (readWindow t 0x04, readWindow t 0x0C)
     | _ => none) = some (0x00000200#32, 0x00000003#32) := by decide

/-- An illegal word, written to CMD: STATUS 0x800, FLAGS.ILL (95_test_vectors.md 2.1). -/
theorem test_illegal_word_status :
    (match step (State.reset.withFetchWord 32 0x00000023) with
     | .next t => some (readWindow t 0x04, readWindow t 0x0C)
     | _ => none) = some (0x00000800#32, 0x00000008#32) := by decide

theorem test_step_runs_fetched_word :
    step (State.reset.withFetchWord 32 0x00020109) = .next (writeReg State.reset 1 0x0003243F#32) := by rfl

/-! ### Witnesses -/

theorem reaches_offset (off bytes : Nat) (kind : AccessKind) (h : off < 128) :
    Access.reaches ⟨Config.pBase + off, bytes, kind⟩ = true := by
  simp [Access.reaches, h]

theorem offset_of_offset (off bytes : Nat) (kind : AccessKind) :
    Access.offset ⟨Config.pBase + off, bytes, kind⟩ = off := by
  simp [Access.offset]

theorem status_read_is_status_read : Access.isStatusRead ⟨Config.pBase + 0x04, 4, .read⟩ = true := by
  simp [Access.isStatusRead, Access.isWord, reaches_offset, offset_of_offset]

theorem data_read_is_held (off : Nat) (h : off ≠ 0x04) :
    Access.isStatusRead ⟨Config.pBase + off, 4, .read⟩ = false := by
  simp [Access.isStatusRead, offset_of_offset, h]

def busy (c : Word) (es : List HostEvent) : State := { State.reset with executing := some c, pending := es }
def idle (es : List HostEvent) : State := { State.reset with pending := es }
def readAt (off : Nat) : HostEvent := .access ⟨Config.pBase + off, 4, .read⟩
def writeAt (off : Nat) (v : Word) : HostEvent := .access ⟨Config.pBase + off, 4, .write v⟩

theorem witness_DecodeOfEncode : (Instr.ldk 1 8#4).wellFormed = true := by decide
theorem witness_EncodeOfDecode : decode 0x00020109#32 = .ok (.ldk 1 2#4) := by decide
theorem witness_StepRunsDecodedCommand_no_event :
    (busy 0x00010201#32 []).executing = some 0x00010201#32 ∧ decode 0x00010201#32 = .ok (.add 2 0 1) ∧
    NothingComesFirst (busy 0x00010201#32 []).pending := ⟨rfl, by decide, trivial⟩
theorem witness_StepRunsDecodedCommand_held_access :
    NothingComesFirst (busy 0x00010201#32 [readAt 0x10]).pending :=
  ⟨reaches_offset _ _ _ (by decide), data_read_is_held _ (by decide), by simp⟩
theorem witness_StepRunsDecodedCommand_table_word : decodeTableWord 32 0x00010201 = some (.add 2 0 1) := by decide
theorem witness_CmdWriteIssuesCommand :
    (idle [writeAt 0x08 0x00010201#32]).executing = none ∧ (idle [writeAt 0x08 0x00010201#32]).inReset = false ∧
    (idle [writeAt 0x08 0x00010201#32]).pending = .access ⟨Config.pBase + 0x08, 4, .write 0x00010201#32⟩ :: [] :=
  ⟨rfl, rfl, rfl⟩
/-- No well-formed command has the all-zero word (R79). -/
theorem witness_IllegalCommandOnlyRaisesIll :
    (busy 0#32 []).executing = some 0#32 ∧ NothingComesFirst (busy 0#32 []).pending ∧
    ¬ ∃ i : Instr, i.wellFormed = true ∧ encode i = 0#32 := by
  refine ⟨rfl, trivial, ?_⟩
  rintro ⟨i, -, h⟩
  have hm : encode i &&& Laws.TableWord.mask i = Laws.TableWord.matchWord i := by
    cases i with
    | add => exact Laws.TableWord.add _ _ _
    | sub => exact Laws.TableWord.sub _ _ _
    | mul => exact Laws.TableWord.mul _ _ _
    | div => exact Laws.TableWord.div _ _ _
    | fmul => exact Laws.TableWord.fmul _ _ _
    | fdiv => exact Laws.TableWord.fdiv _ _ _
    | scale => exact Laws.TableWord.scale _ _
    | fromint => exact Laws.TableWord.fromint _ _
    | ldk => exact Laws.TableWord.ldk _ _
    | sqrt => exact Laws.TableWord.sqrt _ _
    | ln => exact Laws.TableWord.ln _ _
    | exp => exact Laws.TableWord.exp _ _
    | pow => exact Laws.TableWord.pow _ _ _
    | ipow => exact Laws.TableWord.ipow _ _ _
    | fpow => exact Laws.TableWord.fpow _ _ _
    | sin => exact Laws.TableWord.sin _ _
    | cos => exact Laws.TableWord.cos _ _
    | tan => exact Laws.TableWord.tan _ _
    | csc => exact Laws.TableWord.csc _ _
    | sec => exact Laws.TableWord.sec _ _
    | cot => exact Laws.TableWord.cot _ _
    | rbin => exact Laws.TableWord.rbin _
    | rhex => exact Laws.TableWord.rhex _
    | rdec => exact Laws.TableWord.rdec _
  rw [h] at hm
  cases i <;> simp [Laws.TableWord.mask, Laws.TableWord.matchWord] at hm
theorem witness_AccessesAreHeldWhileBusy_held :
    (busy 0x00010201#32 [readAt 0x10]).executing = some 0x00010201#32 ∧
    Access.reaches ⟨Config.pBase + 0x10, 4, .read⟩ = true ∧ Access.isStatusRead ⟨Config.pBase + 0x10, 4, .read⟩ = false ∧
    ([] : List HostEvent).head? ≠ some .assertReset :=
  ⟨rfl, reaches_offset _ _ _ (by decide), data_read_is_held _ (by decide), by simp⟩
theorem witness_StatusReadWhileBusy :
    (busy 0x00010201#32 [readAt 0x04]).executing = some 0x00010201#32 ∧
    (busy 0x00010201#32 [readAt 0x04]).inReset = false ∧ Access.reaches ⟨Config.pBase + 0x04, 4, .read⟩ = true ∧
    Access.isStatusRead ⟨Config.pBase + 0x04, 4, .read⟩ = true :=
  ⟨rfl, rfl, reaches_offset _ _ _ (by decide), status_read_is_status_read⟩
theorem step_idle_write (off : Nat) (v : Word) (h : off < 128) (h4 : off % 4 = 0) (s : State) (rest : List HostEvent)
    (hx : s.executing = none) (hr : s.inReset = false) (hp : s.pending = writeAt off v :: rest) :
    step s = .next (writeWindow { s with pending := rest } off v) := by
  simp [step_idle hx, idleStep, hp, writeAt, serve, perform, reaches_offset, offset_of_offset, Access.isWord, h, h4, hr]
theorem witness_BusyChangesOnlyAsStated_accept :
    step (idle [writeAt 0x08 0x00010201#32]) = .next (busy 0x00010201#32 []) ∧
    (idle [writeAt 0x08 0x00010201#32]).executing = none :=
  ⟨step_idle_write 0x08 _ (by decide) (by decide) _ [] rfl rfl rfl, rfl⟩
theorem witness_BusyChangesOnlyAsStated_wait : step State.reset = .next State.reset ∧ State.reset.executing = none :=
  ⟨rfl, rfl⟩
theorem witness_BusyChangesOnlyAsStated_complete :
    step (busy 0x00020109#32 []) = .next (writeReg State.reset 1 PI) ∧
    (busy 0x00020109#32 []).executing = some 0x00020109#32 := ⟨rfl, rfl⟩
theorem witness_IdleReadAnswersTheRegister :
    (idle [readAt 0x7C]).executing = none ∧ (idle [readAt 0x7C]).inReset = false ∧ (0x7C : Nat) < 128 ∧ 0x7C % 4 = 0 ∧
    (idle [readAt 0x7C]).pending = .access ⟨Config.pBase + 0x7C, 4, .read⟩ :: [] :=
  ⟨rfl, rfl, by decide, by decide, rfl⟩
theorem witness_ReadOnlyWritesAreIgnored :
    (idle [writeAt 0x60 1#32]).executing = none ∧ (idle [writeAt 0x60 1#32]).inReset = false ∧
    ((0x60 : Nat) ∈ [0x00, 0x04, 0x30, 0x34, 0x38, 0x3C] ∨ (0x40 ≤ 0x60 ∧ 0x60 < 0x80 ∧ 0x60 % 4 = 0)) ∧
    (idle [writeAt 0x60 1#32]).pending = .access ⟨Config.pBase + 0x60, 4, .write 1#32⟩ :: [] :=
  ⟨rfl, rfl, by decide, rfl⟩
theorem witness_ReadOnlyWritesAreIgnored_reserved :
    ((0x3C : Nat) ∈ [0x00, 0x04, 0x30, 0x34, 0x38, 0x3C] ∧ (0x3C : Nat) ∈ [0x34, 0x38, 0x3C]) ∧
    ((0x40 : Nat) ≤ 0x64 ∧ 0x64 < 0x80 ∧ 0x64 % 4 = 0 ∧ 0x64 ≤ 0x64) := by decide
theorem witness_FlagsAndDataRegisterWrites :
    (idle [writeAt 0x0C 0xF#32]).executing = none ∧ (idle [writeAt 0x0C 0xF#32]).inReset = false ∧
    (idle [writeAt 0x0C 0xF#32]).pending = .access ⟨Config.pBase + 0x0C, 4, .write 0xF#32⟩ :: [] ∧
    (idle [writeAt (0x10 + 4 * 7) 9#32]).pending = .access ⟨Config.pBase + (0x10 + 4 * 7), 4, .write 9#32⟩ :: [] :=
  ⟨rfl, rfl, rfl, rfl⟩
theorem witness_NonWordAccessHasNoStep :
    (idle [.access ⟨Config.pBase, 1, .read⟩]).executing = none ∧ (idle [.access ⟨Config.pBase, 1, .read⟩]).inReset = false ∧
    Config.pBase ≤ Config.pBase ∧ Config.pBase < Config.pBase + 128 ∧
    ((1 : Nat) ≠ 4 ∨ (Config.pBase - Config.pBase) % 4 ≠ 0) ∧
    ((4 : Nat) ≠ 4 ∨ (Config.pBase + 2 - Config.pBase) % 4 ≠ 0) :=
  ⟨rfl, rfl, le_refl _, by omega, .inl (by decide), .inr (by omega)⟩
theorem witness_AccessOutsideTheWindow :
    (idle [.access ⟨Config.pBase + 128, 4, .read⟩]).pending = .access ⟨Config.pBase + 128, 4, .read⟩ :: [] ∧
    (Config.pBase + 128 < Config.pBase ∨ Config.pBase + 128 ≤ Config.pBase + 128) := ⟨rfl, .inr (le_refl _)⟩
theorem witness_ResetAbandonsTheCommand_at_once :
    (busy 0x00010201#32 [.assertReset]).executing = some 0x00010201#32 ∧
    (busy 0x00010201#32 [.assertReset]).pending = .assertReset :: [] := ⟨rfl, rfl⟩
theorem witness_ResetAbandonsTheCommand_held :
    (busy 0x00010201#32 [readAt 0x10, .assertReset]).executing = some 0x00010201#32 ∧
    (busy 0x00010201#32 [readAt 0x10, .assertReset]).pending =
      .access ⟨Config.pBase + 0x10, 4, .read⟩ :: .assertReset :: [] ∧
    Access.reaches ⟨Config.pBase + 0x10, 4, .read⟩ = true ∧ Access.isStatusRead ⟨Config.pBase + 0x10, 4, .read⟩ = false :=
  ⟨rfl, rfl, reaches_offset _ _ _ (by decide), data_read_is_held _ (by decide)⟩
theorem witness_AccessesDuringReset :
    (applyReset (idle [readAt 0x10])).executing = none ∧ (applyReset (idle [readAt 0x10])).inReset = true ∧
    (applyReset (idle [readAt 0x10])).pending = .access ⟨Config.pBase + 0x10, 4, .read⟩ :: [] ∧
    Access.reaches ⟨Config.pBase + 0x10, 4, .read⟩ = true ∧
    (idle [.assertReset, .releaseReset, readAt 0x10]).pending = .assertReset :: .releaseReset :: [readAt 0x10] :=
  ⟨rfl, rfl, rfl, reaches_offset _ _ _ (by decide), rfl⟩
theorem witness_ScaleCommand_clauses :
    (readReg (opState 0xFFFFFFFF#32 0#32) 0).toInt < 0 ∧ (readReg (opState 0#32 0#32) 0).toInt = 0 ∧
    0 < (readReg (opState 1#32 0#32) 0).toInt ∧ 0 < (readReg (opState 0x7FFFFFFF#32 0#32) 0).toInt := by decide
theorem witness_LdkCommand_illegal_index :
    decode (formWord 0x09 7 0 9) = .error .constantIndex ∧ decode (formWord 0x09 0 0 15) = .error .constantIndex := by decide
theorem witness_LegalCommandWords : (0xFF : Nat) < 256 ∧ decode 0x000000FF#32 = .error .reservedOp := by decide
theorem witness_ExpCommand_overflow :
    720896 ≤ (readReg (opState 0x000B0000#32 0#32) 0).toInt.natAbs ∧
    720896 ≤ (readReg (opState 0x80000000#32 0#32) 0).toInt.natAbs := by decide
theorem witness_LongDivisionIsFloorQuotient :
    (2 ^ 64 - 1 < 2 ^ 64 ∧ 2 ^ 31 ≤ 2 ^ 31 ∧ 0 < 2 ^ 31) ∧ udiv64 (2 ^ 47) (2 ^ 31) = 65536 ∧ udiv64 5 0 = 2 ^ 64 - 1 := by
  decide
theorem witness_NormalizedMantissa : 0 < (1#32).toInt ∧ 0 < (0x7FFFFFFF#32).toInt := by decide
theorem witness_IpowCommand_recursion : (2 ^ 32 - 1 : Nat) < 2 ^ 32 := by decide
theorem witness_PowerTwoIsSquare : readReg (opState 0xFFFD0000#32 0x00020000#32) 1 = 0x00020000#32 := by decide
theorem witness_DecimalCarryNeverFires : (65535 : Nat) < 65536 ∧ decFrac 3 65535 = (3, 999984741210) := by decide
theorem witness_DestinationCommandFrame :
    destOf (.ldk 7 8#4) = some 7 ∧ (Instr.ldk 7 8#4).wellFormed = true := ⟨rfl, by decide⟩
theorem witness_RenderFrame : destOf (.rdec 0) = none := rfl

/-- The state after `RHEX x0` of 0 meets the invariant: its text is " 0000.0000" (42_format.md R195). -/
def afterRhex : State := commit 0#4 (renderText (hexText 0#32) State.reset)
theorem witness_StepKeepsInvariant : Inv afterRhex ∧ step afterRhex = .next afterRhex := by
  refine ⟨⟨?_, ?_, ?_, ?_⟩, rfl⟩
  · show ∀ k : Fin 36, _
    decide
  · exact .inr (.inr (by decide))
  · exact .inr (by decide)
  · intro h; exact absurd h (by decide)

theorem witness_FlagsChangeOnlyAsStated_complete :
    step (busy 0#32 []) = .next (afterIllegal State.reset) ∧ (afterIllegal State.reset).last ≠ (busy 0#32 []).last :=
  ⟨rfl, by decide⟩
theorem witness_FlagsChangeOnlyAsStated_write :
    step { idle [writeAt 0x0C 0x8#32] with flags := 0x8#4 } = .next State.reset ∧
    State.reset.flags ≠ { idle [writeAt 0x0C 0x8#32] with flags := 0x8#4 }.flags :=
  ⟨(step_idle_write 0x0C 0x8#32 (by decide) (by decide) _ [] rfl rfl rfl).trans rfl, by decide⟩
theorem witness_FlagsChangeOnlyAsStated_reset :
    step { idle [.assertReset] with flags := 0x8#4 } = .next (applyReset State.reset) ∧
    (applyReset State.reset).flags ≠ { idle [.assertReset] with flags := 0x8#4 }.flags := ⟨rfl, by decide⟩
theorem witness_OutputChangesOnlyByRender_complete :
    step (busy 0x00000021#32 []) = .next afterRhex ∧ afterRhex.outlen ≠ (busy 0x00000021#32 []).outlen := ⟨rfl, by decide⟩
theorem witness_OutputChangesOnlyByRender_reset :
    step { afterRhex with pending := [.assertReset] } = .next (applyReset State.reset) ∧
    (applyReset State.reset).outlen ≠ { afterRhex with pending := [.assertReset] }.outlen := ⟨rfl, by decide⟩
theorem witness_DataRegisterChangesOnlyAsStated_complete :
    step (busy 0x00020109#32 []) = .next (writeReg State.reset 1 PI) ∧
    readReg (writeReg State.reset 1 PI) 1 ≠ readReg (busy 0x00020109#32 []) 1 := ⟨rfl, by decide⟩
theorem witness_DataRegisterChangesOnlyAsStated_write :
    step (idle [writeAt 0x2C 9#32]) = .next (writeReg State.reset 7 9#32) ∧
    readReg (writeReg State.reset 7 9#32) 7 ≠ readReg (idle [writeAt 0x2C 9#32]) 7 :=
  ⟨step_idle_write 0x2C _ (by decide) (by decide) _ [] rfl rfl rfl, by decide⟩
theorem witness_DataRegisterChangesOnlyAsStated_reset :
    step { writeReg State.reset 7 9#32 with pending := [.assertReset] } = .next (applyReset State.reset) ∧
    readReg (applyReset State.reset) 7 ≠ readReg { writeReg State.reset 7 9#32 with pending := [.assertReset] } 7 :=
  ⟨rfl, by decide⟩
theorem witness_RunIsSequentialComposition :
    (idle [writeAt 0x2C 9#32]).executing = none ∧ (∀ e ∈ (idle [writeAt 0x2C 9#32]).pending, ∃ a, e = .access a) ∧
    sequential (idle [writeAt 0x2C 9#32]).pending { idle [writeAt 0x2C 9#32] with pending := [] } =
      .next (writeReg State.reset 7 9#32) := by
  refine ⟨rfl, by simp [idle, writeAt], ?_⟩
  simp [idle, writeAt, sequential, serve, perform, reaches_offset, offset_of_offset, Access.isWord, State.reset]
  rfl
theorem witness_ReadAfterCommandReturnsResult :
    (idle [writeAt 0x08 0x00020109#32, readAt (0x10 + 4 * 1)]).executing = none ∧
    (idle [writeAt 0x08 0x00020109#32, readAt (0x10 + 4 * 1)]).inReset = false ∧
    decode 0x00020109#32 = .ok (.ldk 1 2#4) ∧ destOf (.ldk 1 2#4) = some 1 ∧
    (idle [writeAt 0x08 0x00020109#32, readAt (0x10 + 4 * 1)]).pending =
      [.access ⟨Config.pBase + 0x08, 4, .write 0x00020109#32⟩,
       .access ⟨Config.pBase + 0x10 + 4 * (1 : Reg).val, 4, .read⟩] := ⟨rfl, rfl, by decide, rfl, rfl⟩

end Sys2Proof.Machine.Tests
end

section
/-! SUPPORT. What one step can do: the completion of a command word, an access that has its turn, and the inversion of
`step` that the statements about what changes the state rest on (R20, R25, R50, R57, R58). -/

namespace Sys2Proof.Machine

/-! The completion of a command word. -/

/-- The commands without a destination are the renders (R74). -/
theorem destOf_eq_none_iff (i : Instr) :
    destOf i = none ↔ ∃ r, i = .rbin r ∨ i = .rhex r ∨ i = .rdec r := by
  cases i <;> simp [destOf]

/-- Everything a completion can do: write the command's destination, write a render's text, or raise ILL. -/
theorem complete_cases {c : Word} {s t : State} (h : complete c s = .next t) :
    (∃ i rd v fl, decode c = .ok i ∧ destOf i = some rd ∧ t = afterCommand rd v fl s) ∨
    (∃ i text, decode c = .ok i ∧ destOf i = none ∧ t = commit 0#4 (renderText text s)) ∨
    t = afterIllegal s := by
  cases hd : decode c with
  | error e =>
    rw [complete_error hd] at h
    exact .inr (.inr (Host.Outcome.next.inj h).symm)
  | ok i =>
    rw [complete_ok hd] at h
    obtain ⟨rd, v, fl, hi, hx⟩ | ⟨text, hi, hx⟩ | ⟨-, hx⟩ := exec_cases i s <;>
      obtain rfl := Host.Outcome.next.inj (hx.symm.trans h)
    · exact .inl ⟨i, rd, v, fl, rfl, hi, rfl⟩
    · exact .inr (.inl ⟨i, text, rfl, hi, rfl⟩)
    · exact .inr (.inr rfl)

/-- BUSY falls in a completion (R222). -/
theorem complete_executing {c : Word} {s t : State} (h : complete c s = .next t) : t.executing = none := by
  obtain ⟨u, hu, hx, -⟩ := complete_next c s
  obtain rfl := Host.Outcome.next.inj (hu.symm.trans h)
  exact hx

/-- A command leaves every data register but its destination (R85). -/
theorem readReg_afterCommand_other (v : Word) (fl : FlagSet) (s : State) {r rd : Reg} (h : r ≠ rd) :
    readReg (afterCommand rd v fl s) r = readReg s r := by
  rw [← commit_writeReg, readReg_commit, readReg_writeReg_other _ _ _ h]

/-! An access that has its turn. -/

theorem step_access {s : State} {a : Access} {rest : List HostEvent} (hx : s.executing = none)
    (hp : s.pending = .access a :: rest) : step s = perform a { s with pending := rest } := by
  simp [step_idle hx, idleStep, hp, serve]

theorem perform_read {a : Access} {s : State} (ha : a.reaches = true) (hw : a.isWord = true) (hk : a.kind = .read)
    (hr : s.inReset = false) :
    perform a s = .next { s with replies := ⟨a.offset, readWindow s a.offset⟩ :: s.replies } := by
  simp [perform, ha, hw, hk, hr]

theorem perform_write {a : Access} {s : State} {v : Word} (ha : a.reaches = true) (hw : a.isWord = true)
    (hk : a.kind = .write v) (hr : s.inReset = false) : perform a s = .next (writeWindow s a.offset v) := by
  simp [perform, ha, hw, hk, hr]

/-- An access at an offset inside the window reaches the block (R50). -/
theorem reaches_at {off : Nat} (h : off < 128) (bytes : Nat) (kind : AccessKind) :
    Access.reaches ⟨Config.pBase + off, bytes, kind⟩ = true := by
  simp [Access.reaches, h]

@[simp] theorem offset_at (off bytes : Nat) (kind : AccessKind) :
    Access.offset ⟨Config.pBase + off, bytes, kind⟩ = off := by
  simp [Access.offset]

/-- A word write at a word offset of the window, on an idle block out of reset. -/
theorem step_write_at {s : State} {off : Nat} {v : Word} {rest : List HostEvent} (h : off < 128) (h4 : off % 4 = 0)
    (hx : s.executing = none) (hr : s.inReset = false)
    (hp : s.pending = .access ⟨Config.pBase + off, 4, .write v⟩ :: rest) :
    step s = .next (writeWindow { s with pending := rest } off v) := by
  have hw : Access.isWord ⟨Config.pBase + off, 4, .write v⟩ = true := by simp [Access.isWord_iff, h4]
  rw [step_access hx hp, perform_write (reaches_at h _ _) hw rfl (by exact hr), offset_at]

/-- A STATUS read that finds a command executing is answered or follows the completion, as the draw says (R25). -/
theorem busyStep_statusRead (c : Word) {s : State} {a : Access} {rest : List HostEvent}
    (hp : s.pending = .access a :: rest) (ha : a.isStatusRead = true) :
    busyStep c s = if Config.commandCompletesFirst s.draws then complete c (countDraw s)
      else .next (statusWhileBusy rest s) := by
  have hreach : a.reaches = true := ((Access.isStatusRead_iff a).mp ha).1
  simp [busyStep, hp, hreach, ha]

/-! The inversion of a step. -/

/-- Two states agree on every register and on the executing command: they differ at most in the reset input and the model's
own fields. -/
structure KeepsRegisters (s t : State) : Prop where
  x : t.x = s.x
  last : t.last = s.last
  flags : t.flags = s.flags
  outlen : t.outlen = s.outlen
  out : t.out = s.out
  executing : t.executing = s.executing

/-- The access writes the word `v` to the offset `off` of the window (R50, R51). -/
structure Access.WritesWord (a : Access) (off : Nat) (v : Word) : Prop where
  addr : a.addr = Config.pBase + off
  bytes : a.bytes = 4
  kind : a.kind = .write v

/-- Everything a step from `s` to `t` can do to the registers and to BUSY. -/
inductive StepEffect (s t : State) : Prop
  /-- The executing command completes, its draw counted or not (R84, R222). -/
  | completes (c : Word) (u : State) (busy : s.executing = some c) (start : u = s ∨ u = countDraw s)
      (done : complete c u = .next t)
  /-- A reset is applied; it is the first or the second pending event (R250, R251). -/
  | resets (u : State) (pending : HostEvent.assertReset ∈ s.pending.take 2) (next : t = applyReset u)
  /-- A write of CMD issues a command (R23). -/
  | writesCmd (a : Access) (rest : List HostEvent) (v : Word) (idle : s.executing = none)
      (pending : s.pending = .access a :: rest) (write : a.WritesWord 0x08 v)
      (next : t = { s with pending := rest, executing := some v })
  /-- A write of FLAGS clears flags (R26). -/
  | writesFlags (a : Access) (rest : List HostEvent) (v : Word) (idle : s.executing = none)
      (pending : s.pending = .access a :: rest) (write : a.WritesWord 0x0C v)
      (next : t = { s with pending := rest, flags := s.flags &&& ~~~ (v.setWidth 4) })
  /-- A write of a data register replaces it (R20). -/
  | writesReg (a : Access) (rest : List HostEvent) (v : Word) (r : Reg) (idle : s.executing = none)
      (pending : s.pending = .access a :: rest) (write : a.WritesWord (0x10 + 4 * r.val) v)
      (next : t = writeReg { s with pending := rest } r v)
  | keeps (kept : KeepsRegisters s t)

/-- What serving a word write on an idle block does. -/
theorem StepEffect.of_write {s : State} {a : Access} {rest : List HostEvent} {v : Word} (hx : s.executing = none)
    (hp : s.pending = .access a :: rest) (ha : a.reaches = true) (hw : a.isWord = true) (hk : a.kind = .write v) :
    StepEffect s (writeWindow { s with pending := rest } a.offset v) := by
  obtain ⟨hlt, haddr⟩ := Access.offset_lt ha
  obtain ⟨hbytes, h4⟩ := (Access.isWord_iff a).mp hw
  have hwrites : a.WritesWord a.offset v := ⟨haddr, hbytes, hk⟩
  obtain ⟨ho, hwr⟩ | ⟨ho, hwr⟩ | ⟨r, ho, hwr⟩ | ⟨-, hwr⟩ :=
    writeWindow_cases { s with pending := rest } a.offset v hlt h4
  · exact .writesCmd a rest v hx hp (ho ▸ hwrites) hwr
  · exact .writesFlags a rest v hx hp (ho ▸ hwrites) hwr
  · exact .writesReg a rest v r hx hp (ho ▸ hwrites) hwr
  · rw [hwr]
    exact .keeps ⟨rfl, rfl, rfl, rfl, rfl, rfl⟩

theorem StepEffect.of_idleStep {s t : State} (hx : s.executing = none) (h : idleStep s = .next t) :
    StepEffect s t := by
  obtain ⟨-, rfl⟩ | ⟨rest, hp, rfl⟩ | ⟨rest, -, rfl⟩ | ⟨a, rest, -, -, rfl⟩ | ⟨a, rest, -, -, -, -, -, rfl⟩ |
    ⟨a, rest, v, hp, ha, hw, -, hk, rfl⟩ := idleStep_cases h
  · exact .keeps ⟨rfl, rfl, rfl, rfl, rfl, rfl⟩
  · exact .resets _ (by simp [hp]) rfl
  · exact .keeps ⟨rfl, rfl, rfl, rfl, rfl, rfl⟩
  · exact .keeps ⟨rfl, rfl, rfl, rfl, rfl, rfl⟩
  · exact .keeps ⟨rfl, rfl, rfl, rfl, rfl, rfl⟩
  · exact .of_write hx hp ha hw hk

theorem StepEffect.of_busyStep {c : Word} {s t : State} (hx : s.executing = some c) (h : busyStep c s = .next t) :
    StepEffect s t := by
  obtain hb | hb | ⟨rest, hb, -⟩ | ⟨rest, hb, -⟩ | ⟨rest, hb, -⟩ | ⟨rest, hb, hp⟩ | ⟨a, later, hb, hp⟩ :=
    busyStep_cases c s <;> rw [hb] at h
  · exact .completes c s hx (.inl rfl) h
  · exact .completes c (countDraw s) hx (.inr rfl) h
  all_goals obtain rfl := Host.Outcome.next.inj h
  · exact .keeps ⟨rfl, rfl, rfl, rfl, rfl, rfl⟩
  · exact .keeps ⟨rfl, rfl, rfl, rfl, rfl, rfl⟩
  · exact .keeps ⟨rfl, rfl, rfl, rfl, rfl, rfl⟩
  · exact .resets _ (by simp [hp]) rfl
  · exact .resets _ (by simp [hp]) rfl

/-- The inversion lemma of `step`. -/
theorem step_effect {s t : State} (h : step s = .next t) : StepEffect s t := by
  cases hx : s.executing with
  | none => exact .of_idleStep hx (step_idle hx ▸ h)
  | some c => exact .of_busyStep hx (step_busy hx ▸ h)

/-- A busy step clears BUSY or serves an event. -/
theorem busyStep_clears_or_serves {c : Word} {s t : State} (h : busyStep c s = .next t) :
    t.executing = none ∨ t.pending.length + 1 = s.pending.length := by
  obtain hb | hb | ⟨rest, hb, a, hp, -⟩ | ⟨rest, hb, a, hp, -⟩ | ⟨rest, hb, hp⟩ | ⟨rest, hb, -⟩ | ⟨a, later, hb, -⟩ :=
    busyStep_cases c s <;> rw [hb] at h
  · exact .inl (complete_executing h)
  · exact .inl (complete_executing h)
  all_goals obtain rfl := Host.Outcome.next.inj h
  · exact .inr (by rw [hp]; rfl)
  · exact .inr (by rw [hp]; rfl)
  · exact .inr (by rw [hp]; rfl)
  · exact .inl rfl
  · exact .inl rfl

/-! The map of the window (R22). -/

@[simp] theorem windowReg_data (r : Reg) : windowReg (0x10 + 4 * r.val) = .data r := by
  revert r; decide

@[simp] theorem windowReg_out (k : Fin 9) : windowReg (0x40 + 4 * k.val) = .out k := by
  revert k; decide

theorem windowReg_reserved {off : Nat} (h : (0x34 ≤ off ∧ off < 0x40) ∨ 0x64 ≤ off) : windowReg off = .reserved := by
  have hne : off ≠ 0x00 ∧ off ≠ 0x04 ∧ off ≠ 0x08 ∧ off ≠ 0x0C ∧ ¬ off < 0x30 ∧ off ≠ 0x30 := by omega
  have hout : 0x40 ≤ off → 0x64 ≤ off := by omega
  simpa [windowReg, hne] using hout

@[simp] theorem readWindow_data (s : State) (r : Reg) : readWindow s (0x10 + 4 * r.val) = readReg s r := by
  simp [readWindow]

@[simp] theorem readWindow_out (s : State) (k : Fin 9) : readWindow s (0x40 + 4 * k.val) = outWord s k := by
  simp [readWindow]

/-- A reserved offset reads 0 (R31). -/
theorem readWindow_reserved (s : State) {off : Nat} (h : (0x34 ≤ off ∧ off < 0x40) ∨ 0x64 ≤ off) :
    readWindow s off = 0#32 := by
  simp [readWindow, windowReg_reserved h]

end Sys2Proof.Machine
end

section
/-! PROOF. The statements about the state, the register window, BUSY, and what changes each register (10_state.md). -/

namespace Sys2Proof.Machine

/-- Settles O9: the draw is split, and the STATUS word is read before the completion or after it. -/
theorem statusReadWhileBusy : Obligations.StatusReadWhileBusy := by
  intro s c a rest hx hr hp ha
  rw [step_busy hx, busyStep_statusRead c hp ha]
  split
  · obtain ⟨t, ht, hxt, hrt, hpt, hreplies, -⟩ := complete_next c (countDraw s)
    obtain ⟨hreach, hword, hoff, hkind⟩ := (Access.isStatusRead_iff a).mp ha
    have hstep : step t = .next { t with pending := rest, replies := ⟨0x04, statusWord t⟩ :: s.replies } := by
      rw [step_access hxt (hpt.trans hp), perform_read hreach hword hkind (by exact hrt.trans hr), hoff]
      simp only [hreplies, countDraw_replies]
      rfl
    obtain ⟨hbusy, -, hlast, -⟩ := statusWord_fields t
    exact .inr ⟨t, _, statusWord t, ht, hxt, hpt, ht, hstep, rfl, by rw [hbusy, hxt]; rfl, hlast⟩
  · obtain ⟨hbusy, -, hlast, -⟩ := statusWord_fields s
    exact .inl ⟨statusWord s, rfl, by rw [hbusy, hx]; rfl, hlast⟩

/-- Settles O10: of the effects of a step only a write of CMD sets BUSY, and it is served on an idle block. -/
theorem busyChangesOnlyAsStated : Obligations.BusyChangesOnlyAsStated := by
  constructor
  · intro s t h hx
    cases step_effect h with
    | completes c u hc hu ht => exact .inl (complete_executing ht)
    | resets u hmem ht => exact .inl (ht ▸ rfl)
    | writesCmd a rest v _ hp hw ht => exact .inr ⟨a, v, rest, hp, hw.addr, hw.bytes, hw.kind, ht ▸ rfl⟩
    | writesFlags a rest v _ hp hw ht => exact .inl (ht ▸ hx)
    | writesReg a rest v r _ hp hw ht => exact .inl (ht ▸ hx)
    | keeps hkept => exact .inl (hkept.executing.trans hx)
  · intro s t c h hx
    cases step_effect h with
    | completes c u hc hu ht => exact .inr (complete_executing ht)
    | resets u hmem ht => exact .inr (ht ▸ rfl)
    | writesCmd a rest v hidle => simp [hx] at hidle
    | writesFlags a rest v hidle => simp [hx] at hidle
    | writesReg a rest v r hidle => simp [hx] at hidle
    | keeps hkept => exact .inl (hkept.executing.trans hx)

/-- Settles O12, from the map of the window and the fields of the STATUS and OUT words. -/
theorem windowReadMap : Obligations.WindowReadMap := by
  intro s
  obtain ⟨hbusy, hlow, hlast, hhigh⟩ := statusWord_fields s
  refine ⟨rfl, ⟨hbusy, hlast, hlow, hhigh⟩, rfl, ?_, readWindow_data s, ?_, ?_, ?_⟩
  · exact BitVec.toNat_setWidth_of_le (by decide)
  · exact BitVec.toNat_setWidth_of_le (by decide)
  · intro off hoff
    have hrange : (0x34 ≤ off ∧ off < 0x40) ∨ 0x64 ≤ off := by
      simp only [List.mem_cons, List.not_mem_nil, or_false] at hoff
      omega
    exact readWindow_reserved s hrange
  · intro k j
    rw [readWindow_out]
    exact outWord_byte s k j

/-- Settles O13: no offset of the list is that of CMD, FLAGS or a data register. -/
theorem readOnlyWritesAreIgnored : Obligations.ReadOnlyWritesAreIgnored := by
  intro s off v rest hx hr hoff hp
  have hrange : off < 128 ∧ off % 4 = 0 ∧ (off = 0x00 ∨ off = 0x04 ∨ 0x30 ≤ off) := by
    simp only [List.mem_cons, List.not_mem_nil, or_false] at hoff
    omega
  obtain ⟨hlt, h4, hro⟩ := hrange
  constructor
  · rw [step_write_at hlt h4 hx hr hp]
    obtain ⟨ho, -⟩ | ⟨ho, -⟩ | ⟨r, ho, -⟩ | ⟨-, hwr⟩ := writeWindow_cases { s with pending := rest } off v hlt h4
    · omega
    · omega
    · omega
    · rw [hwr]
  · intro hres
    refine readWindow_reserved s ?_
    simp only [List.mem_cons, List.not_mem_nil, or_false] at hres
    omega

/-- Settles O53: of the effects of a step a completion, a reset and a write of FLAGS reach LAST or FLAGS. -/
theorem flagsChangeOnlyAsStated : Obligations.FlagsChangeOnlyAsStated := by
  intro s t h hne
  cases step_effect h with
  | completes c u hc hu ht =>
    have hfrom : complete c s = .next t ∨ complete c (countDraw s) = .next t := by
      obtain rfl | rfl := hu
      · exact .inl ht
      · exact .inr ht
    exact .inl ⟨c, hc, complete_executing ht, hfrom⟩
  | resets u hmem ht =>
    subst ht
    exact .inr (.inr ⟨hmem, rfl, rfl, rfl⟩)
  | writesFlags a rest v hx hp hw ht =>
    exact .inr (.inl ⟨hx, ht ▸ rfl, a, v, rest, hp, hw.addr, hw.bytes, hw.kind⟩)
  | writesCmd a rest v hx hp hw ht => simp [ht] at hne
  | writesReg a rest v r hx hp hw ht => simp [ht] at hne
  | keeps hkept => simp [hkept.last, hkept.flags] at hne

/-- Settles O54: of the completions only a render's writes the buffer, and no write of the window does. -/
theorem outputChangesOnlyByRender : Obligations.OutputChangesOnlyByRender := by
  intro s t h hne
  cases step_effect h with
  | completes c u hc hu ht =>
    have hout : u.out = s.out ∧ u.outlen = s.outlen := by obtain rfl | rfl := hu <;> exact ⟨rfl, rfl⟩
    have hidle := complete_executing ht
    obtain ⟨i, rd, v, fl, -, -, rfl⟩ | ⟨i, text, hi, hd, rfl⟩ | rfl := complete_cases ht
    · simp [afterCommand, hout] at hne
    · obtain ⟨r, hr⟩ := (destOf_eq_none_iff i).mp hd
      exact .inl ⟨c, r, hc, hidle, by simpa [hi] using hr⟩
    · simp [afterIllegal, hout] at hne
  | resets u hmem ht =>
    subst ht
    exact .inr ⟨hmem, rfl, rfl, rfl⟩
  | writesCmd a rest v hx hp hw ht => simp [ht] at hne
  | writesFlags a rest v hx hp hw ht => simp [ht] at hne
  | writesReg a rest v r hx hp hw ht => simp [ht] at hne
  | keeps hkept => simp [hkept.out, hkept.outlen] at hne

/-- Settles O55: a completion writes its destination alone, and a write of the window the register at its offset. -/
theorem dataRegisterChangesOnlyAsStated : Obligations.DataRegisterChangesOnlyAsStated := by
  intro s t r h hne
  cases step_effect h with
  | completes c u hc hu ht =>
    have hreg : readReg u r = readReg s r := by obtain rfl | rfl := hu <;> rfl
    have hidle := complete_executing ht
    obtain ⟨i, rd, v, fl, hi, hd, rfl⟩ | ⟨i, text, -, -, rfl⟩ | rfl := complete_cases ht
    · obtain rfl | hrd := eq_or_ne r rd
      · exact .inl ⟨c, i, hc, hidle, hi, hd⟩
      · exact absurd ((readReg_afterCommand_other v fl u hrd).trans hreg) hne
    · exact absurd hreg hne
    · exact absurd hreg hne
  | resets u hmem ht =>
    subst ht
    exact .inr (.inr ⟨hmem, rfl, by simp [readReg, State.reset]⟩)
  | writesReg a rest v q hx hp hw ht =>
    subst ht
    obtain rfl | hq := eq_or_ne r q
    · have haddr : a.addr = Config.pBase + 0x10 + 4 * r.val := by rw [hw.addr, Nat.add_assoc]
      exact .inr (.inl ⟨hx, a, v, rest, hp, haddr, hw.bytes, hw.kind, readReg_writeReg_same _ _ _⟩)
    · exact absurd (readReg_writeReg_other _ _ _ hq) hne
  | writesCmd a rest v hx hp hw ht => exact absurd (ht ▸ rfl) hne
  | writesFlags a rest v hx hp hw ht => exact absurd (ht ▸ rfl) hne
  | keeps hkept => exact absurd (by simp [readReg, hkept.x]) hne

/-- Settles O56, by induction on the number of pending events: a busy step clears BUSY or serves one of them. -/
theorem busyAlwaysFalls : Obligations.BusyAlwaysFalls := by
  intro s
  induction hn : s.pending.length using Nat.strong_induction_on generalizing s with
  | _ k ih =>
    cases hx : s.executing with
    | none => exact ⟨0, s, Nat.zero_le _, rfl, hx⟩
    | some c =>
      obtain ⟨t, ht⟩ := busyStep_next c s
      have hrun := run_next ((step_busy hx).trans ht)
      obtain hclear | hserve := busyStep_clears_or_serves ht
      · exact ⟨1, t, by omega, hrun 0, hclear⟩
      · obtain ⟨n, u, hle, hu, hidle⟩ := ih t.pending.length (by omega) t rfl
        exact ⟨n + 1, u, by omega, (hrun n).trans hu, hidle⟩

/-- Settles O6: the write of CMD, and the BUSY bit of the STATUS word. -/
theorem cmdWriteIssuesCommand : Obligations.CmdWriteIssuesCommand := by
  intro s v rest hx hr hp
  have hstep := step_write_at (by decide) (by decide) hx hr hp
  obtain ⟨hbusy, -⟩ := statusWord_fields { s with executing := some v, pending := rest }
  exact ⟨hstep, hbusy⟩

/-- Settles O17: the data registers and the buffer are replicated zeros, and the rest is the reset state's own text. -/
theorem resetValues : Obligations.ResetValues := by
  refine ⟨fun r => ?_, rfl, rfl, rfl, fun k => ?_, rfl, rfl, by decide⟩
  · simp [readReg, State.reset]
  · simp [State.reset]

/-- Settles O52: the empty text, of length 0, with no flag, and reset released. -/
theorem resetMeetsInvariant : Obligations.ResetMeetsInvariant := by
  have htext : TextForm State.reset := fun k => by simp [State.reset]
  have hlength : LengthForm State.reset := .inl rfl
  have hlast : LastForm State.reset := .inr rfl
  have hreset : ResetForm State.reset := fun h => by simp [State.reset] at h
  exact ⟨htext, hlength, hlast, hreset⟩

end Sys2Proof.Machine
end

section
/-! SUPPORT. The accesses of the host port: what an access does that has its turn, what a busy block does with one, and what
a host can see of the block but the timing of its STATUS reads (R25, R50, R51, R53, R57, R58). -/

namespace Sys2Proof.Machine

/-! An access that has its turn, or finds a command executing. -/

/-- The range of the window (R50). -/
theorem Access.reaches_iff (a : Access) :
    a.reaches = true ↔ Config.pBase ≤ a.addr ∧ a.addr < Config.pBase + 128 := by
  simp [Access.reaches]

theorem perform_outside {a : Access} (ha : a.reaches = false) (s : State) : perform a s = .next s := by
  simp [perform, ha]

theorem perform_notAWord {a : Access} {s : State} (ha : a.reaches = true) (hw : a.isWord = false)
    (hr : s.inReset = false) : perform a s = .refused .accessNotAWord := by
  simp [perform, ha, hw, hr]

/-- A word read at a word offset of the window, on an idle block out of reset. -/
theorem step_read_at {s : State} {off : Nat} {rest : List HostEvent} (h : off < 128) (h4 : off % 4 = 0)
    (hx : s.executing = none) (hr : s.inReset = false)
    (hp : s.pending = .access ⟨Config.pBase + off, 4, .read⟩ :: rest) :
    step s = .next { s with pending := rest, replies := ⟨off, readWindow s off⟩ :: s.replies } := by
  have hw : Access.isWord ⟨Config.pBase + off, 4, .read⟩ = true := by simp [Access.isWord_iff, h4]
  rw [step_access hx hp, perform_read (reaches_at h _ _) hw rfl (by exact hr), offset_at]
  rfl

@[simp] theorem writeWindow_data (s : State) (r : Reg) (v : Word) :
    writeWindow s (0x10 + 4 * r.val) v = writeReg s r v := by
  simp [writeWindow]

/-- No write of the window reaches the events not yet served. -/
@[simp] theorem writeWindow_pending (s : State) (off : Nat) (v : Word) :
    (writeWindow s off v).pending = s.pending := by
  unfold writeWindow
  split <;> rfl

theorem perform_pending {a : Access} {s t : State} (h : perform a s = .next t) : t.pending = s.pending := by
  obtain ⟨-, hp⟩ | ⟨-, -, hp⟩ | ⟨-, -, -, hp⟩ | ⟨-, -, -, -, hp⟩ | ⟨v, -, -, -, -, hp⟩ := perform_cases a s <;>
    rw [hp] at h <;> cases h
  · rfl
  · rfl
  · exact writeWindow_pending s a.offset v

/-- An access outside the window is not held (R50, R58). -/
theorem busyStep_outside (c : Word) {s : State} {a : Access} {rest : List HostEvent}
    (hp : s.pending = .access a :: rest) (ha : a.reaches = false) : busyStep c s = .next { s with pending := rest } := by
  simp [busyStep, hp, ha]

/-- With nothing before it the completion is the step; a held access waits (R54, R58). -/
theorem busyStep_of_nothingComesFirst (c : Word) {s : State} (h : NothingComesFirst s.pending) :
    busyStep c s = complete c s := by
  cases hp : s.pending with
  | nil => simp [busyStep, hp]
  | cons e rest =>
    rw [hp] at h
    cases e with
    | assertReset => exact False.elim h
    | releaseReset => exact False.elim h
    | access a =>
      obtain ⟨ha, hs, hrest⟩ := h
      simp only [busyStep, hp, ha, hs, Bool.true_eq_false, Bool.false_eq_true, if_false]
      split
      · simp at hrest
      · rfl

/-! What a host can see of the block but the timing of its STATUS reads. -/

/-- The state less the events not yet served, the draws and the replies to STATUS reads. -/
def visible (s : State) : State := { s with pending := [], replies := timelessReplies s, draws := 0 }

/-- `SameBlock` is equality of what is visible. -/
theorem sameBlock_iff_visible (s t : State) : SameBlock s t ↔ visible s = visible t := by
  simp [SameBlock, visible]

theorem SameBlock.refl (s : State) : SameBlock s s := (sameBlock_iff_visible s s).mpr rfl

theorem SameBlock.symm {s t : State} (h : SameBlock s t) : SameBlock t s :=
  (sameBlock_iff_visible t s).mpr ((sameBlock_iff_visible s t).mp h).symm

theorem SameBlock.trans {s t u : State} (h : SameBlock s t) (h' : SameBlock t u) : SameBlock s u :=
  (sameBlock_iff_visible s u).mpr (((sameBlock_iff_visible s t).mp h).trans ((sameBlock_iff_visible t u).mp h'))

theorem SameBlock.executing_eq {s t : State} (h : SameBlock s t) : s.executing = t.executing := by
  obtain ⟨-, -, -, -, -, hx, -⟩ := h
  exact hx

theorem SameBlock.inReset_eq {s t : State} (h : SameBlock s t) : s.inReset = t.inReset := by
  obtain ⟨-, -, -, -, -, -, hr, -⟩ := h
  exact hr

/-- No host sees the events not yet served or the draws. -/
theorem SameBlock.of_own_fields (s : State) (es : List HostEvent) (n : Nat) :
    SameBlock { s with pending := es, draws := n } s := .refl s

/-- A reply to a STATUS read depends on timing (R25, R57). -/
theorem SameBlock.of_statusReply (s : State) (w : Word) :
    SameBlock { s with replies := ⟨0x04, w⟩ :: s.replies } s := by
  simp [sameBlock_iff_visible, visible, timelessReplies]

/-- What a read answers is visible (R22). -/
theorem SameBlock.readWindow_eq {s t : State} (h : SameBlock s t) (off : Nat) : readWindow s off = readWindow t off := by
  have hvisible : ∀ v : State, readWindow v off = readWindow (visible v) off := fun v => rfl
  rw [hvisible s, hvisible t, (sameBlock_iff_visible s t).mp h]

theorem SameBlock.cons_reply {s t : State} (h : SameBlock s t) (r : Reply) :
    SameBlock { s with replies := r :: s.replies } { t with replies := r :: t.replies } := by
  obtain ⟨hx, hlast, hflags, houtlen, hout, hexec, hreset, hreplies⟩ := h
  refine ⟨hx, hlast, hflags, houtlen, hout, hexec, hreset, ?_⟩
  have hsplit : ∀ v : State, timelessReplies { v with replies := r :: v.replies } =
      [r].filter (fun q => q.offset ≠ 0x04) ++ timelessReplies v := fun v => List.filter_append [r] v.replies
  rw [hsplit, hsplit, hreplies]

theorem visible_writeWindow (s : State) (off : Nat) (v : Word) :
    visible (writeWindow s off v) = writeWindow (visible s) off v := by
  cases hw : windowReg off <;> simp only [writeWindow, hw] <;> rfl

theorem SameBlock.writeWindow_congr {s t : State} (h : SameBlock s t) (off : Nat) (v : Word) :
    SameBlock (writeWindow s off v) (writeWindow t off v) := by
  rw [sameBlock_iff_visible, visible_writeWindow, visible_writeWindow, (sameBlock_iff_visible s t).mp h]

/-- A completion reads and changes what is visible alone. -/
theorem complete_visible {c : Word} {s t : State} (h : complete c s = .next t) :
    complete c (visible s) = .next (visible t) := by
  cases hd : decode c with
  | error e =>
    rw [complete_error hd] at h ⊢
    cases h
    rfl
  | ok i =>
    rw [complete_ok hd] at h ⊢
    obtain ⟨rd, -, f, hf⟩ | ⟨-, g, hg⟩ | ⟨-, hill⟩ := exec_uniform i
    · rw [hf] at h ⊢
      cases h
      rfl
    · rw [hg] at h ⊢
      cases h
      rfl
    · rw [hill] at h ⊢
      cases h
      rfl

theorem SameBlock.complete_congr {c : Word} {s t s' : State} (h : SameBlock s t) (hs : complete c s = .next s') :
    ∃ t', complete c t = .next t' ∧ SameBlock s' t' := by
  obtain ⟨t', ht, -⟩ := complete_next c t
  have hvis : Host.Outcome.next (visible s') = .next (visible t') :=
    calc Host.Outcome.next (visible s')
      _ = complete c (visible s) := (complete_visible hs).symm
      _ = complete c (visible t) := by rw [(sameBlock_iff_visible s t).mp h]
      _ = .next (visible t') := complete_visible ht
  exact ⟨t', ht, (sameBlock_iff_visible s' t').mpr (Host.Outcome.next.inj hvis)⟩

theorem SameBlock.perform_congr {a : Access} {s t s' : State} (h : SameBlock s t) (hs : perform a s = .next s') :
    ∃ t', perform a t = .next t' ∧ SameBlock s' t' := by
  obtain ⟨ha, hp⟩ | ⟨-, -, hp⟩ | ⟨-, -, -, hp⟩ | ⟨ha, hr, hw, hk, hp⟩ | ⟨v, ha, hr, hw, hk, hp⟩ := perform_cases a s <;>
    rw [hp] at hs <;> cases hs
  · exact ⟨t, perform_outside ha t, h⟩
  · refine ⟨_, perform_read ha hw hk (h.inReset_eq ▸ hr), ?_⟩
    rw [h.readWindow_eq]
    exact h.cons_reply _
  · exact ⟨_, perform_write ha hw hk (h.inReset_eq ▸ hr), h.writeWindow_congr _ _⟩

/-- A host sees nothing of an access outside the window, nor of a STATUS read but its timing (R25, R50, R53). -/
theorem SameBlock.of_perform {a : Access} {s t : State} (ha : a.reaches = false ∨ a.isStatusRead = true)
    (h : perform a s = .next t) : SameBlock t s := by
  obtain hout | hstatus := ha
  · rw [perform_outside hout] at h
    cases h
    exact .refl s
  · obtain ⟨hreach, -, hoff, hread⟩ := (Access.isStatusRead_iff a).mp hstatus
    obtain ⟨hout, -⟩ | ⟨-, -, hp⟩ | ⟨-, -, -, hp⟩ | ⟨-, -, -, -, hp⟩ | ⟨v, -, -, -, hwrite, -⟩ := perform_cases a s
    · simp [hreach] at hout
    · simp [hp] at h
    · simp [hp] at h
    · rw [hp, hoff] at h
      cases h
      exact .of_statusReply s _
    · simp [hread] at hwrite

/-! The sequential composition. -/

/-- `t` is `s` once its executing command, if there is one, has completed. -/
def Completed (s t : State) : Prop :=
  match s.executing with
  | none => t = s
  | some c => complete c s = .next t

theorem completed_idle {s t : State} (hx : s.executing = none) : Completed s t ↔ t = s := by
  simp [Completed, hx]

theorem completed_busy {s t : State} {c : Word} (hx : s.executing = some c) :
    Completed s t ↔ complete c s = .next t := by
  simp [Completed, hx]

theorem Completed.executing {s t : State} (h : Completed s t) : t.executing = none := by
  cases hx : s.executing with
  | none => rw [(completed_idle hx).mp h, hx]
  | some c => exact complete_executing ((completed_busy hx).mp h)

theorem SameBlock.completed_congr {s t s' : State} (h : SameBlock s t) (hs : Completed s s') :
    ∃ t', Completed t t' ∧ SameBlock s' t' := by
  cases hx : s.executing with
  | none => exact ⟨t, (completed_idle (h.executing_eq ▸ hx)).mpr rfl, (completed_idle hx).mp hs ▸ h⟩
  | some c =>
    obtain ⟨t', ht, hsame⟩ := SameBlock.complete_congr h ((completed_busy hx).mp hs)
    exact ⟨t', (completed_busy (h.executing_eq ▸ hx)).mpr ht, hsame⟩

/-- Each event is served, and the command that it issues completed, before the next (R57). -/
theorem sequential_cons_next {e : HostEvent} {es : List HostEvent} {s u : State}
    (h : sequential (e :: es) s = .next u) :
    ∃ t v, serve e s = .next t ∧ Completed t v ∧ sequential es v = .next u := by
  unfold sequential at h
  split at h
  · rename_i t ht
    split at h
    · exact ⟨t, t, ht, (completed_idle ‹_›).mpr rfl, h⟩
    · split at h
      · exact ⟨t, _, ht, (completed_busy ‹_›).mpr ‹_›, h⟩
      · simp at h
      · simp at h
  · simp at h
  · simp at h

end Sys2Proof.Machine
end

section
/-! PROOF. The statements about the accesses a host makes to the window (20_memory.md). -/

namespace Sys2Proof.Machine

/-! The run of the block lags behind the sequential composition by the completion of one command at most. -/

/-- The state `s` of a run has only accesses to serve, and the sequential composition, from a state that shows what `s` shows
once its command has completed, serves them to `u`. -/
structure HeadsFor (s u : State) : Prop where
  accesses : ∀ e ∈ s.pending, ∃ a, e = .access a
  arrives : ∃ v w, Completed s v ∧ SameBlock v w ∧ sequential s.pending w = .next u

theorem HeadsFor.tail_accesses {s u : State} {e : HostEvent} {rest : List HostEvent} (h : HeadsFor s u)
    (hp : s.pending = e :: rest) : ∀ e' ∈ rest, ∃ a, e' = .access a :=
  fun e' he => h.accesses e' (hp ▸ List.mem_cons_of_mem e he)

/-- Two steps for each access to serve, and one for the executing command. -/
def stepsLeft (s : State) : Nat := 2 * s.pending.length + if s.executing.isSome then 1 else 0

theorem stepsLeft_idle {s : State} (hx : s.executing = none) : stepsLeft s = 2 * s.pending.length := by
  simp [stepsLeft, hx]

theorem stepsLeft_busy {s : State} {c : Word} (hx : s.executing = some c) : stepsLeft s = 2 * s.pending.length + 1 := by
  simp [stepsLeft, hx]

theorem stepsLeft_le (s : State) : stepsLeft s ≤ 2 * s.pending.length + 1 := by
  cases hx : s.executing with
  | none => exact (stepsLeft_idle hx).trans_le (Nat.le_succ _)
  | some c => exact (stepsLeft_busy hx).le

/-- An idle block with nothing to serve has arrived. -/
theorem HeadsFor.arrived {s u : State} (h : HeadsFor s u) (hx : s.executing = none) (hp : s.pending = []) :
    SameBlock s u := by
  obtain ⟨-, v, w, hv, hsame, hseq⟩ := h
  obtain rfl := (completed_idle hx).mp hv
  rw [hp] at hseq
  exact Host.Outcome.next.inj hseq ▸ hsame

/-- An idle block serves the next access as the sequential composition does. -/
theorem HeadsFor.idle_step {s u : State} {e : HostEvent} {rest : List HostEvent} (h : HeadsFor s u)
    (hx : s.executing = none) (hp : s.pending = e :: rest) :
    ∃ t, step s = .next t ∧ HeadsFor t u ∧ stepsLeft t < stepsLeft s := by
  have htail := h.tail_accesses hp
  obtain ⟨haccess, v, w, hv, hsame, hseq⟩ := h
  rw [hp] at haccess hseq
  obtain ⟨a, rfl⟩ := haccess e List.mem_cons_self
  obtain rfl := (completed_idle hx).mp hv
  obtain ⟨w', w'', hserve, hcomplete, hrest⟩ := sequential_cons_next hseq
  have hturn : SameBlock w { v with pending := rest } := hsame.symm.trans (SameBlock.of_own_fields v rest v.draws).symm
  obtain ⟨t, ht, hsame'⟩ := SameBlock.perform_congr hturn hserve
  obtain ⟨v', hv', hsame''⟩ := hsame'.completed_congr hcomplete
  have hpending : t.pending = rest := perform_pending ht
  refine ⟨t, (step_access hx hp).trans ht, ⟨hpending ▸ htail, v', w'', hv', hsame''.symm, hpending ▸ hrest⟩, ?_⟩
  have hle := stepsLeft_le t
  rw [hpending] at hle
  rw [stepsLeft_idle hx, hp, List.length_cons]
  omega

/-- The completion, its draw counted or not, is the one that the sequential composition has made already. -/
theorem HeadsFor.completion {s s₀ t u : State} {c : Word} (h : HeadsFor s u) (hx : s.executing = some c)
    (hsame : SameBlock s s₀) (hp : s₀.pending = s.pending) (ht : complete c s₀ = .next t) :
    HeadsFor t u ∧ stepsLeft t < stepsLeft s := by
  obtain ⟨haccess, v, w, hv, hvw, hseq⟩ := h
  obtain ⟨t', ht', hidle, -, hpending, -⟩ := complete_next c s₀
  obtain rfl := Host.Outcome.next.inj (ht'.symm.trans ht)
  rw [hp] at hpending
  obtain ⟨t'', ht'', hvt⟩ := SameBlock.complete_congr hsame ((completed_busy hx).mp hv)
  obtain rfl := Host.Outcome.next.inj (ht''.symm.trans ht)
  refine ⟨⟨hpending ▸ haccess, t'', w, (completed_idle hidle).mpr rfl, hvt.symm.trans hvw, hpending ▸ hseq⟩, ?_⟩
  rw [stepsLeft_idle hidle, stepsLeft_busy hx, hpending]
  exact Nat.lt_succ_self _

/-- An access that is not held is served before the completion here and after it in the sequential composition, and a host
sees no difference. -/
theorem HeadsFor.overtakes {s t u : State} {c : Word} {a : Access} {rest : List HostEvent} (h : HeadsFor s u)
    (hx : s.executing = some c) (hp : s.pending = .access a :: rest) (ha : a.reaches = false ∨ a.isStatusRead = true)
    (hsame : SameBlock s t) (hpt : t.pending = rest) : HeadsFor t u ∧ stepsLeft t < stepsLeft s := by
  have htail := h.tail_accesses hp
  obtain ⟨-, v, w, hv, hvw, hseq⟩ := h
  rw [hp] at hseq
  obtain ⟨w', w'', hserve, hcomplete, hrest⟩ := sequential_cons_next hseq
  have hww' : SameBlock w' w := .of_perform ha hserve
  have hidle : w'.executing = none := (hvw.trans hww'.symm).executing_eq ▸ hv.executing
  obtain rfl := (completed_idle hidle).mp hcomplete
  obtain ⟨v', hv', hvv'⟩ := hsame.completed_congr hv
  refine ⟨⟨hpt ▸ htail, v', w'', hv', (hvv'.symm.trans hvw).trans hww'.symm, hpt ▸ hrest⟩, ?_⟩
  have hle := stepsLeft_le t
  rw [hpt] at hle
  rw [stepsLeft_busy hx, hp, List.length_cons]
  omega

theorem HeadsFor.busy_step {s u : State} {c : Word} (h : HeadsFor s u) (hx : s.executing = some c) :
    ∃ t, step s = .next t ∧ HeadsFor t u ∧ stepsLeft t < stepsLeft s := by
  rw [step_busy hx]
  obtain hb | hb | ⟨rest, hb, a, hp, ha⟩ | ⟨rest, hb, a, hp, ha⟩ | ⟨rest, -, hp⟩ | ⟨rest, -, hp⟩ | ⟨a, later, -, hp⟩ :=
    busyStep_cases c s
  · obtain ⟨t, ht, -⟩ := complete_next c s
    exact ⟨t, hb.trans ht, h.completion hx (.refl s) rfl ht⟩
  · obtain ⟨t, ht, -⟩ := complete_next c (countDraw s)
    exact ⟨t, hb.trans ht, h.completion hx (SameBlock.of_own_fields s s.pending (s.draws + 1)).symm rfl ht⟩
  · exact ⟨_, hb, h.overtakes hx hp (.inl ha) (SameBlock.of_own_fields s _ _).symm rfl⟩
  · exact ⟨_, hb, h.overtakes hx hp (.inr ha) (SameBlock.of_statusReply s _).symm rfl⟩
  · simpa using h.accesses .releaseReset (by simp [hp])
  · simpa using h.accesses .assertReset (by simp [hp])
  · simpa using h.accesses .assertReset (by simp [hp])

/-- The run arrives, by induction on the steps left. -/
theorem HeadsFor.run {s u : State} (h : HeadsFor s u) :
    ∃ (n : Nat) (t : State), n ≤ stepsLeft s ∧ Host.Core.run Sys2Proof.core n s = .next t ∧
      t.pending = [] ∧ t.executing = none ∧ SameBlock t u := by
  induction hk : stepsLeft s using Nat.strong_induction_on generalizing s with
  | _ k ih =>
    by_cases hdone : s.executing = none ∧ s.pending = []
    · obtain ⟨hx, hp⟩ := hdone
      exact ⟨0, s, Nat.zero_le _, rfl, hp, hx, h.arrived hx hp⟩
    · have hstep : ∃ t, step s = .next t ∧ HeadsFor t u ∧ stepsLeft t < stepsLeft s := by
        cases hx : s.executing with
        | some c => exact h.busy_step hx
        | none =>
          cases hp : s.pending with
          | nil => exact absurd ⟨hx, hp⟩ hdone
          | cons e rest => exact h.idle_step hx hp
      obtain ⟨t, ht, hheads, hlt⟩ := hstep
      obtain ⟨n, v, hn, hrun, harrived⟩ := ih (stepsLeft t) (hk ▸ hlt) hheads rfl
      exact ⟨n + 1, v, by omega, (run_next ht n).trans hrun, harrived⟩

/-- Settles O57: an idle state heads for what the sequential composition answers, and the run arrives there. -/
theorem runIsSequentialComposition : Obligations.RunIsSequentialComposition := by
  intro s u hx haccess hseq
  have hheads : HeadsFor s u :=
    ⟨haccess, s, { s with pending := [] }, (completed_idle hx).mpr rfl, (SameBlock.of_own_fields s [] s.draws).symm, hseq⟩
  exact stepsLeft_idle hx ▸ hheads.run

/-! The other statements. -/

/-- Settles O8: a held access waits for the completion and is then performed; the draw of a STATUS read is split. -/
theorem accessesAreHeldWhileBusy : Obligations.AccessesAreHeldWhileBusy := by
  intro s c a rest hx hp ha
  constructor
  · intro hheld hreset
    have hfirst : NothingComesFirst s.pending := hp ▸ ⟨ha, hheld, hreset⟩
    obtain ⟨t, ht, hxt, -, hpt, hreplies, -⟩ := complete_next c s
    exact ⟨t, (step_busy hx).trans ((busyStep_of_nothingComesFirst c hfirst).trans ht), ht, hxt, hpt, hreplies,
      step_access hxt (hpt.trans hp)⟩
  · intro hstatus
    rw [step_busy hx, busyStep_statusRead c hp hstatus]
    split
    · obtain ⟨t, ht, hxt, -⟩ := complete_next c (countDraw s)
      exact ⟨t, ht, .inr hxt⟩
    · exact ⟨_, rfl, .inl ⟨rfl, rfl⟩⟩

/-- Settles O14: the two arms of the write of the window, and the mask of FLAGS bit by bit. -/
theorem flagsAndDataRegisterWrites : Obligations.FlagsAndDataRegisterWrites := by
  constructor
  · intro s v rest hx hr hp
    refine ⟨s.flags &&& ~~~(v.setWidth 4), step_write_at (by decide) (by decide) hx hr hp, fun b => ?_⟩
    simp
  · intro s r v rest hx hr hp
    rw [Nat.add_assoc] at hp
    rw [step_write_at (by omega) (by omega) hx hr hp, writeWindow_data]
    rfl

/-- Settles O11: a read at a word offset of the window. -/
theorem idleReadAnswersTheRegister : Obligations.IdleReadAnswersTheRegister :=
  fun _ _ _ hx hr hlt h4 hp => step_read_at hlt h4 hx hr hp

/-- Settles O15: the access reaches the block and is not a word. -/
theorem nonWordAccessHasNoStep : Obligations.NonWordAccessHasNoStep := by
  intro s a rest hx hr hp hlow hhigh hshape
  have hreach : a.reaches = true := (Access.reaches_iff a).mpr ⟨hlow, hhigh⟩
  have hword : a.isWord = false := by
    rw [← Bool.not_eq_true, Access.isWord_iff, not_and_or]
    exact hshape
  rw [step_access hx hp, perform_notAWord hreach hword (by exact hr)]

/-- Settles O16: the access is passed with a command executing or without. -/
theorem accessOutsideTheWindow : Obligations.AccessOutsideTheWindow := by
  intro s a rest hp haddr
  have houtside : a.reaches = false := by
    rw [← Bool.not_eq_true, Access.reaches_iff]
    omega
  cases hx : s.executing with
  | none => rw [step_access hx hp, perform_outside houtside, hx]
  | some c => rw [step_busy hx, busyStep_outside c hp houtside, hx]

end Sys2Proof.Machine
end

section
/-! SUPPORT. The decoder and the encoder: what a command word's fields read, the shape of a form as an equation between words,
and what `decode` accepts, said once (R71, R72, R74, R75, R78). -/

namespace Sys2Proof

/-! The fields of a command word (R71, R72). -/

@[simp] theorem opField_commandWord (op : BitVec 8) (rd rs1 rs2 : BitVec 4) :
    opField (commandWord op rd rs1 rs2) = op := by
  ext i hi
  interval_cases i <;> simp [opField, commandWord]

@[simp] theorem rdField_commandWord (op : BitVec 8) (rd rs1 rs2 : BitVec 4) :
    rdField (commandWord op rd rs1 rs2) = rd := by
  ext i hi
  interval_cases i <;> simp [rdField, commandWord]

@[simp] theorem rs1Field_commandWord (op : BitVec 8) (rd rs1 rs2 : BitVec 4) :
    rs1Field (commandWord op rd rs1 rs2) = rs1 := by
  ext i hi
  interval_cases i <;> simp [rs1Field, commandWord]

@[simp] theorem rs2Field_commandWord (op : BitVec 8) (rd rs1 rs2 : BitVec 4) :
    rs2Field (commandWord op rd rs1 rs2) = rs2 := by
  ext i hi
  interval_cases i <;> simp [rs2Field, commandWord]

@[simp] theorem fieldReg_regField (r : Reg) : fieldReg (regField r) = r := by
  revert r; decide

/-- A register keeps the three low bits of its field. -/
@[simp] theorem regField_fieldReg (f : BitVec 4) : regField (fieldReg f) = f &&& 7#4 := by
  revert f; decide

/-- The word of some bits of the fields of `c`, where the form fixes the others. -/
theorem commandWord_masked_fields (f : Form) (c : Word) (m1 m2 m3 : BitVec 4)
    (hm : commandWord 0xFF#8 m1 m2 m3 = 0xFF#32 ||| ~~~f.mask) :
    commandWord (opField c) (rdField c &&& m1) (rs1Field c &&& m2) (rs2Field c &&& m3) = c &&& (0xFF#32 ||| ~~~f.mask) := by
  rw [← hm]
  ext i hi
  interval_cases i <;> simp [commandWord, opField, rdField, rs1Field, rs2Field]

theorem opField_setWidth_eq (c : Word) : (opField c).setWidth 32 = c &&& 0xFF#32 := by
  ext i hi
  interval_cases i <;> simp [opField]

@[simp] theorem opField_setWidth (op : BitVec 8) : opField (op.setWidth 32) = op := by
  ext i hi
  interval_cases i <;> simp [opField]

@[simp] theorem rs2Field_setWidth (op : BitVec 8) : rs2Field (op.setWidth 32) = 0#4 := by
  ext i hi
  interval_cases i <;> simp [rs2Field]

theorem toNat_opField (c : Word) : (opField c).toNat = c.toNat % 256 := by
  simp [opField]

/-! The shape of a form (R74). -/

/-- The form's word for the fields of `c`: the fields that the form uses are kept, the others are zero. -/
def Form.wordOf (f : Form) (c : Word) : Word :=
  match f with
  | .rrr => wordRRR (opField c) (fieldReg (rdField c)) (fieldReg (rs1Field c)) (fieldReg (rs2Field c))
  | .rr => wordRR (opField c) (fieldReg (rdField c)) (fieldReg (rs1Field c))
  | .rk => wordRK (opField c) (fieldReg (rdField c)) (rs2Field c)
  | .s => wordS (opField c) (fieldReg (rs1Field c))

theorem Form.wordOf_eq (f : Form) (c : Word) : f.wordOf c = c &&& (0xFF#32 ||| ~~~f.mask) := by
  cases f with
  | rrr => simpa [wordOf, wordRRR] using commandWord_masked_fields .rrr c 7#4 7#4 7#4 (by decide)
  | rr => simpa [wordOf, wordRR] using commandWord_masked_fields .rr c 7#4 7#4 0#4 (by decide)
  | rk =>
    have hk : rs2Field c &&& 15#4 = rs2Field c := BitVec.and_allOnes
    simpa [wordOf, wordRK, hk] using commandWord_masked_fields .rk c 7#4 0#4 15#4 (by decide)
  | s => simpa [wordOf, wordS] using commandWord_masked_fields .s c 0#4 7#4 0#4 (by decide)

/-- Every form fixes the OP field (R74). -/
theorem Form.mask_op (f : Form) : 0xFF#32 &&& f.mask = 0xFF#32 := by
  cases f <;> decide

theorem Form.opWord_mask (f : Form) (op : BitVec 8) : op.setWidth 32 &&& f.mask = op.setWidth 32 := by
  rw [← opField_setWidth op, opField_setWidth_eq, BitVec.and_assoc, f.mask_op]

theorem Form.opField_mask (f : Form) (c : Word) : opField (c &&& f.mask) = opField c := by
  have hbit : ∀ i < 8, f.mask.getLsbD i = true := by cases f <;> decide
  ext i hi
  simp [opField, hbit i hi]

/-- A word has the shape of a form exactly when it is the form's word for its own fields. -/
theorem Form.shape_iff (f : Form) (c : Word) : c &&& f.mask = (opField c).setWidth 32 ↔ f.wordOf c = c := by
  rw [opField_setWidth_eq, Form.wordOf_eq]
  constructor
  · intro h
    calc c &&& (0xFF#32 ||| ~~~f.mask)
      _ = c &&& f.mask ||| c &&& ~~~f.mask := by rw [BitVec.and_or_distrib_left, h]
      _ = c := by rw [← BitVec.and_or_distrib_left, BitVec.or_not_self, BitVec.and_allOnes]
  · intro h
    calc c &&& f.mask
      _ = c &&& (0xFF#32 ||| ~~~f.mask) &&& f.mask := by rw [h]
      _ = c &&& (0xFF#32 &&& f.mask) := by
        rw [BitVec.and_assoc]
        congr 1
        ext i hi
        simp [Bool.and_or_distrib_right]
      _ = c &&& 0xFF#32 := by rw [f.mask_op]

/-! The opcode map (R75). -/

/-- The word has the shape of the row's form, and K names a constant where the form has a K (R73, R74). -/
def OpRow.Accepts (row : OpRow) (c : Word) : Prop :=
  row.form.wordOf c = c ∧ (row.form = .rk → constantIndexOk (rs2Field c) = true)

/-- What the decoder accepts, and what it answers (R84). -/
theorem decode_eq_ok_iff (c : Word) (i : Instr) :
    decode c = .ok i ↔ ∃ row, opTable.lookup (opField c) = some row ∧ row.Accepts c ∧ row.instr c = i := by
  unfold decode OpRow.Accepts
  cases opTable.lookup (opField c) with
  | none => simp
  | some row =>
    simp only [← Form.shape_iff]
    split_ifs with hshape hk
    · simp [hshape]
    · simp [hk]
    · have hindex : row.form = .rk → constantIndexOk (rs2Field c) = true := fun hform => by simpa [hform] using hk
      simpa [not_ne_iff.mp hshape] using fun _ => hindex

/-- Every row is found under its key: the keys are distinct. -/
theorem lookup_of_mem_opTable : ∀ p ∈ opTable, opTable.lookup p.1 = some p.2 := by
  simp [opTable, List.lookup]

theorem mem_of_lookup_opTable {op : BitVec 8} {row : OpRow} (h : opTable.lookup op = some row) :
    (op, row) ∈ opTable := by
  obtain ⟨l₁, l₂, hl, -⟩ := List.lookup_eq_some_iff.mp h
  simp [hl]

/-- The map and the encoder agree: a row's command has the word of the row's form and key (R74, R75). -/
theorem encode_instr_of_mem_opTable : ∀ p ∈ opTable, ∀ c,
    opField c = p.1 → encode (p.2.instr c) = p.2.form.wordOf c := by
  simp +contextual [opTable, OpRow.instr, OpRow.form, encode, Form.wordOf]

/-- A row builds well-formed commands, K being checked where its form has one (R73). -/
theorem wellFormed_instr_of_mem_opTable : ∀ p ∈ opTable, ∀ c,
    (p.2.form = .rk → constantIndexOk (rs2Field c) = true) → (p.2.instr c).wellFormed = true := by
  simp [opTable, OpRow.instr, OpRow.form, Instr.wellFormed]

/-! The word of each form decodes to the command of its row. -/

theorem decode_wordRRR {op : BitVec 8} {build : Reg → Reg → Reg → Instr} (h : opTable.lookup op = some (.rrr build))
    (rd rs1 rs2 : Reg) : decode (wordRRR op rd rs1 rs2) = .ok (build rd rs1 rs2) := by
  refine (decode_eq_ok_iff _ _).mpr ⟨.rrr build, ?_, ⟨?_, by simp [OpRow.form]⟩, ?_⟩
  · simpa [wordRRR] using h
  · simp [OpRow.form, Form.wordOf, wordRRR]
  · simp [OpRow.instr, wordRRR]

theorem decode_wordRR {op : BitVec 8} {build : Reg → Reg → Instr} (h : opTable.lookup op = some (.rr build))
    (rd rs1 : Reg) : decode (wordRR op rd rs1) = .ok (build rd rs1) := by
  refine (decode_eq_ok_iff _ _).mpr ⟨.rr build, ?_, ⟨?_, by simp [OpRow.form]⟩, ?_⟩
  · simpa [wordRR] using h
  · simp [OpRow.form, Form.wordOf, wordRR]
  · simp [OpRow.instr, wordRR]

theorem decode_wordRK {op : BitVec 8} {build : Reg → BitVec 4 → Instr} (h : opTable.lookup op = some (.rk build))
    (rd : Reg) {k : BitVec 4} (hk : constantIndexOk k = true) : decode (wordRK op rd k) = .ok (build rd k) := by
  refine (decode_eq_ok_iff _ _).mpr ⟨.rk build, ?_, ⟨?_, fun _ => ?_⟩, ?_⟩
  · simpa [wordRK] using h
  · simp [OpRow.form, Form.wordOf, wordRK]
  · simpa [wordRK] using hk
  · simp [OpRow.instr, wordRK]

theorem decode_wordS {op : BitVec 8} {build : Reg → Instr} (h : opTable.lookup op = some (.s build)) (rs1 : Reg) :
    decode (wordS op rs1) = .ok (build rs1) := by
  refine (decode_eq_ok_iff _ _).mpr ⟨.s build, ?_, ⟨?_, by simp [OpRow.form]⟩, ?_⟩
  · simpa [wordS] using h
  · simp [OpRow.form, Form.wordOf, wordS]
  · simp [OpRow.instr, wordS]

/-- A table word that decodes is a command word that decodes. -/
theorem decodeTableWord_eq_some {nbits w : Nat} {i : Instr} (h : decodeTableWord nbits w = some i) :
    ∃ c, tableWord nbits w = some c ∧ decode c = .ok i := by
  unfold decodeTableWord at h
  split at h
  · simp at h
  · split at h
    · exact ⟨_, ‹_›, ‹decode _ = _›.trans (congrArg _ (Option.some.inj h))⟩
    · simp at h

/-! The OP values of a form (R75, R78). -/

/-- The OP values that the map gives a form, as words. -/
def Form.ops (f : Form) : List Word := (opTable.filter fun p => p.2.form = f).map fun p => p.1.setWidth 32

theorem Form.mem_ops_iff (f : Form) (w : Word) :
    w ∈ f.ops ↔ ∃ op row, (op, row) ∈ opTable ∧ row.form = f ∧ op.setWidth 32 = w := by
  simp [Form.ops, and_assoc]

theorem Form.ops_rrr : ops .rrr =
    [0x01#32, 0x02#32, 0x03#32, 0x04#32, 0x05#32, 0x06#32, 0x13#32, 0x14#32, 0x15#32] := rfl
theorem Form.ops_rr : ops .rr =
    [0x07#32, 0x08#32, 0x10#32, 0x11#32, 0x12#32, 0x18#32, 0x19#32, 0x1A#32, 0x1B#32, 0x1C#32, 0x1D#32] := rfl
theorem Form.ops_rk : ops .rk = [0x09#32] := rfl
theorem Form.ops_s : ops .s = [0x20#32, 0x21#32, 0x22#32] := rfl

theorem Form.exists_iff {p : Form → Prop} : (∃ f, p f) ↔ p .rrr ∨ p .rr ∨ p .rk ∨ p .s := by
  constructor
  · rintro ⟨f, hf⟩
    cases f <;> simp [hf]
  · rintro (h | h | h | h) <;> exact ⟨_, h⟩

/-- Which words are commands, by their forms. -/
theorem decode_isOk_iff (c : Word) :
    (∃ i, decode c = .ok i) ↔
      ∃ f : Form, c &&& f.mask ∈ f.ops ∧ (f = .rk → constantIndexOk (rs2Field c) = true) := by
  simp only [decode_eq_ok_iff, Form.mem_ops_iff]
  constructor
  · rintro ⟨i, row, hlookup, ⟨hshape, hk⟩, -⟩
    exact ⟨row.form, ⟨_, row, mem_of_lookup_opTable hlookup, rfl, ((Form.shape_iff _ _).mpr hshape).symm⟩, hk⟩
  · rintro ⟨_, ⟨op, row, hmem, rfl, hmask⟩, hk⟩
    have hop : opField c = op := by rw [← Form.opField_mask row.form, ← hmask, opField_setWidth]
    have hshape : row.form.wordOf c = c := (Form.shape_iff _ _).mp (by rw [hop, hmask])
    exact ⟨_, row, hop ▸ lookup_of_mem_opTable _ hmem, ⟨hshape, hk⟩, rfl⟩

/-- An OP value has a command word exactly when it is in the map: the row's word with every operand zero (R78). -/
theorem exists_decode_opField_iff (op : BitVec 8) :
    (∃ c i, opField c = op ∧ decode c = .ok i) ↔ op ∈ opTable.map Prod.fst := by
  simp only [List.mem_map, Prod.exists, exists_and_right, exists_eq_right]
  constructor
  · rintro ⟨c, i, rfl, hd⟩
    obtain ⟨row, hlookup, -⟩ := (decode_eq_ok_iff c i).mp hd
    exact ⟨row, mem_of_lookup_opTable hlookup⟩
  · rintro ⟨row, hmem⟩
    have hop : op.setWidth 32 &&& row.form.mask ∈ row.form.ops :=
      (Form.mem_ops_iff _ _).mpr ⟨op, row, hmem, rfl, (row.form.opWord_mask op).symm⟩
    have hk : constantIndexOk (rs2Field (op.setWidth 32)) = true := by rw [rs2Field_setWidth]; decide
    obtain ⟨i, hi⟩ := (decode_isOk_iff (op.setWidth 32)).mpr ⟨row.form, hop, fun _ => hk⟩
    exact ⟨_, i, opField_setWidth op, hi⟩

theorem constantIndexOk_rs2Field_iff (c : Word) : constantIndexOk (rs2Field c) = true ↔ c.toNat / 2 ^ 16 % 16 ≤ 8 := by
  simp [constantIndexOk, rs2Field, BitVec.extractLsb'_toNat, Nat.shiftRight_eq_div_pow]

end Sys2Proof
end

section
/-! SUPPORT. What a command with a destination leaves: no command raises ILL (R14, R225), and the window reads as before but for
STATUS, FLAGS and the destination (R22, R85). -/

namespace Sys2Proof.Machine

/-! No function of the pseudocode raises ILL: "ILL excludes all other flags" (R225). -/

/-- The function has not raised ILL. -/
def Fx.NoIll {α : Type} (m : Fx α) : Prop := m.fl.getLsbD 3 = false

section
variable {α β : Type}

@[simp] theorem noIll_pure (v : α) : (Fx.pure v).NoIll := by simp [Fx.NoIll]

@[simp] theorem noIll_andThen (m : Fx α) (f : α → Fx β) : (m.andThen f).NoIll ↔ m.NoIll ∧ (f m.val).NoIll := by
  simp [Fx.NoIll]

theorem Fx.NoIll.andThen {m : Fx α} {f : α → Fx β} (hm : m.NoIll) (hf : ∀ v, (f v).NoIll) : (m.andThen f).NoIll :=
  (noIll_andThen m f).mpr ⟨hm, hf m.val⟩

@[simp] theorem noIll_ite (c : Prop) [Decidable c] (m n : Fx α) :
    (if c then m else n).NoIll ↔ (c → m.NoIll) ∧ (¬c → n.NoIll) := by
  split <;> simp [*]

end

/-! The arithmetic engine. -/

@[simp] theorem noIll_narrow (v : Int) : (narrow v).NoIll := by
  rw [Fx.NoIll, narrow_fl, Plain.overflow]
  split <;> decide

@[simp] theorem noIll_fxFromint (n : Word) : (fxFromint n).NoIll := noIll_narrow _
@[simp] theorem noIll_fxAdd (a b : Word) : (fxAdd a b).NoIll := noIll_narrow _
@[simp] theorem noIll_fxSub (a b : Word) : (fxSub a b).NoIll := noIll_narrow _
@[simp] theorem noIll_fxMul (a b : Word) : (fxMul a b).NoIll := noIll_narrow _
@[simp] theorem noIll_fxFmul (a b : Word) : (fxFmul a b).NoIll := noIll_narrow _

theorem noIll_raiseIf (c : Bool) {f : FlagSet} (h : f.getLsbD 3 = false) : (raiseIf c f).getLsbD 3 = false := by
  cases c
  · exact BitVec.getLsbD_zero
  · exact h

@[simp] theorem noIll_fxDiv (a b : Word) : (fxDiv a b).NoIll := by
  unfold Fx.NoIll fxDiv
  dsimp only
  split
  · rfl
  · exact noIll_raiseIf _ rfl

@[simp] theorem noIll_fxFdiv (a b : Word) : (fxFdiv a b).NoIll := by
  unfold fxFdiv
  split
  · exact (rfl : flagDZ.getLsbD 3 = false)
  · exact noIll_narrow _

@[simp] theorem noIll_fxScale (a : Word) : (fxScale a).NoIll := noIll_raiseIf _ rfl

@[simp] theorem noIll_fxNorm (x : Word) : (fxNorm x).NoIll := by simp [fxNorm]

@[simp] theorem noIll_fxDivInt (t : Word) (n : Int) : (fxDivInt t n).NoIll := by simp [fxDivInt, fxInt]

/-! The transcendental engine. -/

@[simp] theorem noIll_sqrtNewton (f r : Word) : (sqrtNewton f r).NoIll := by simp [sqrtNewton]

@[simp] theorem noIll_fxSqrtRebuild (r : Word) (s : Int) : (fxSqrtRebuild r s).NoIll := by simp [fxSqrtRebuild]

@[simp] theorem noIll_fxSqrtPos (x : Word) : (fxSqrtPos x).NoIll := by simp [fxSqrtPos]

@[simp] theorem noIll_fxSqrt (x : Word) : (fxSqrt x).NoIll := by
  unfold fxSqrt
  split_ifs
  · exact noIll_pure _
  · exact noIll_pure _
  · rfl
  · exact noIll_fxSqrtPos x

@[simp] theorem noIll_lnSeries (u : Word) : (lnSeries u).NoIll := by simp [lnSeries]

@[simp] theorem noIll_fxLn (x : Word) : (fxLn x).NoIll := by
  unfold fxLn
  split_ifs
  · rfl
  · exact noIll_pure _
  · simp [fxInt]

@[simp] theorem noIll_fxIpowLevels (levels : Nat) (b : Word) (n : Nat) : (fxIpowLevels levels b n).NoIll := by
  induction levels generalizing n with
  | zero => exact noIll_pure _
  | succ levels ih => simp [fxIpowLevels, ih]

@[simp] theorem noIll_fxFpowLoop (p j : Nat) (acc r : Word) : (fxFpowLoop p j acc r).NoIll := by
  induction j generalizing acc r with
  | zero => exact noIll_pure _
  | succ j ih => simp [fxFpowLoop, ih]

@[simp] theorem noIll_fxIpow (b : Word) (n : Nat) : (fxIpow b n).NoIll := noIll_fxIpowLevels _ _ _

@[simp] theorem noIll_fxFpow (b : Word) (p : Nat) : (fxFpow b p).NoIll := noIll_fxFpowLoop _ _ _ _

@[simp] theorem noIll_fxPow (b p : Word) : (fxPow b p).NoIll := by simp [fxPow]

@[simp] theorem noIll_fxSinser (t : Word) : (fxSinser t).NoIll := by simp [fxSinser]

@[simp] theorem noIll_fxNegate (y : Word) : (fxNegate y).NoIll := noIll_fxSub _ _

@[simp] theorem noIll_sinReduced (r : Word) : (sinReduced r).NoIll := by
  unfold sinReduced
  split_ifs
  · exact noIll_pure _
  · exact noIll_pure _
  · exact noIll_pure _
  · exact noIll_fxSinser r
  · exact (noIll_fxSub PI r).andThen noIll_fxSinser
  · exact ((noIll_fxSub r PI).andThen noIll_fxSinser).andThen noIll_fxNegate
  · exact ((noIll_fxSub TWO_PI r).andThen noIll_fxSinser).andThen noIll_fxNegate

@[simp] theorem noIll_fxSin (x : Word) : (fxSin x).NoIll := noIll_sinReduced _

@[simp] theorem noIll_fxCos (x : Word) : (fxCos x).NoIll := (noIll_fxSub _ x).andThen noIll_fxSin

theorem noIll_fxTan (x : Word) : (fxTan x).NoIll := by simp [fxTan]
theorem noIll_fxCsc (x : Word) : (fxCsc x).NoIll := by simp [fxCsc]
theorem noIll_fxSec (x : Word) : (fxSec x).NoIll := by simp [fxSec]
theorem noIll_fxCot (x : Word) : (fxCot x).NoIll := by simp [fxCot]

/-! What a command with a destination leaves. -/

/-- A well-formed command with a destination writes it and raises flags that are not ILL. -/
theorem exec_writes_destination {i : Instr} {rd : Reg} (hd : destOf i = some rd) (hwf : i.wellFormed = true) (s : State) :
    ∃ r : Fx Word, r.NoIll ∧ exec i s = .next (afterCommand rd r.val r.fl s) := by
  cases i with
  | ldk rd k =>
    cases hd
    obtain ⟨v, hv⟩ := Option.isSome_iff_exists.mp ((namedConstant_isSome k).trans hwf)
    exact ⟨.pure v, noIll_pure v, runRK_some hv rd s⟩
  | rbin r => cases hd
  | rhex r => cases hd
  | rdec r => cases hd
  | add rd a b => cases hd; exact ⟨_, noIll_fxAdd _ _, rfl⟩
  | sub rd a b => cases hd; exact ⟨_, noIll_fxSub _ _, rfl⟩
  | mul rd a b => cases hd; exact ⟨_, noIll_fxMul _ _, rfl⟩
  | div rd a b => cases hd; exact ⟨_, noIll_fxDiv _ _, rfl⟩
  | fmul rd a b => cases hd; exact ⟨_, noIll_fxFmul _ _, rfl⟩
  | fdiv rd a b => cases hd; exact ⟨_, noIll_fxFdiv _ _, rfl⟩
  | pow rd a b => cases hd; exact ⟨_, noIll_fxPow _ _, rfl⟩
  | ipow rd a b => cases hd; exact ⟨_, noIll_fxIpow _ _, rfl⟩
  | fpow rd a b => cases hd; exact ⟨_, noIll_fxFpow _ _, rfl⟩
  | scale rd a => cases hd; exact ⟨_, noIll_fxScale _, rfl⟩
  | fromint rd a => cases hd; exact ⟨_, noIll_fxFromint _, rfl⟩
  | sqrt rd a => cases hd; exact ⟨_, noIll_fxSqrt _, rfl⟩
  | ln rd a => cases hd; exact ⟨_, noIll_fxLn _, rfl⟩
  | exp rd a => cases hd; exact ⟨_, noIll_fxPow E _, rfl⟩
  | sin rd a => cases hd; exact ⟨_, noIll_fxSin _, rfl⟩
  | cos rd a => cases hd; exact ⟨_, noIll_fxCos _, rfl⟩
  | tan rd a => cases hd; exact ⟨_, noIll_fxTan _, rfl⟩
  | csc rd a => cases hd; exact ⟨_, noIll_fxCsc _, rfl⟩
  | sec rd a => cases hd; exact ⟨_, noIll_fxSec _, rfl⟩
  | cot rd a => cases hd; exact ⟨_, noIll_fxCot _, rfl⟩

/-! The map of the window, from what stands at an offset to the offset (R22). -/

theorem offset_of_windowReg_status {off : Nat} (h : windowReg off = .status) : off = 0x04 := by
  unfold windowReg at h
  split_ifs at h
  assumption

theorem offset_of_windowReg_flags {off : Nat} (h : windowReg off = .flags) : off = 0x0C := by
  unfold windowReg at h
  split_ifs at h
  assumption

theorem offset_of_windowReg_data {off : Nat} {r : Reg} (h4 : off % 4 = 0) (h : windowReg off = .data r) :
    off = 0x10 + 4 * r.val := by
  unfold windowReg at h
  split_ifs at h
  cases h
  dsimp only
  omega

/-- After a command every word of the window but STATUS, FLAGS and the destination reads as before (R85). -/
theorem readWindow_afterCommand {rd : Reg} {off : Nat} (v : Word) (fl : FlagSet) (s : State) (h4 : off % 4 = 0)
    (hstatus : off ≠ 0x04) (hflags : off ≠ 0x0C) (hdest : off ≠ 0x10 + 4 * rd.val) :
    readWindow (afterCommand rd v fl s) off = readWindow s off := by
  cases hw : windowReg off with
  | status => exact absurd (offset_of_windowReg_status hw) hstatus
  | flags => exact absurd (offset_of_windowReg_flags hw) hflags
  | data r =>
    have hne : r ≠ rd := fun e => hdest (e ▸ offset_of_windowReg_data h4 hw)
    simp only [readWindow, hw]
    exact readReg_afterCommand_other v fl s hne
  | id => simp only [readWindow, hw]
  | cmd => simp only [readWindow, hw]
  | outlen => simp only [readWindow, hw]; rfl
  | out k => simp only [readWindow, hw]; rfl
  | reserved => simp only [readWindow, hw]

/-! The step. -/

theorem withFetchWord_of_tableWord {nbits w : Nat} {c : Word} (h : tableWord nbits w = some c) (s : State) :
    s.withFetchWord nbits w = { s with executing := some c, inReset := false, pending := [] } := by
  simp [State.withFetchWord, h]

end Sys2Proof.Machine
end

section
/-! PROOF. The statements about encoding and decoding, and what a step and a command with a destination do
(30_encoding.md). -/

namespace Sys2Proof

/-- Settles O1: every command is built by a row of the map, and its word is that of the row's form. -/
theorem decodeOfEncode : Obligations.DecodeOfEncode := by
  intro i hwf
  cases i with
  | add rd rs1 rs2 => exact decode_wordRRR rfl rd rs1 rs2
  | sub rd rs1 rs2 => exact decode_wordRRR rfl rd rs1 rs2
  | mul rd rs1 rs2 => exact decode_wordRRR rfl rd rs1 rs2
  | div rd rs1 rs2 => exact decode_wordRRR rfl rd rs1 rs2
  | fmul rd rs1 rs2 => exact decode_wordRRR rfl rd rs1 rs2
  | fdiv rd rs1 rs2 => exact decode_wordRRR rfl rd rs1 rs2
  | pow rd rs1 rs2 => exact decode_wordRRR rfl rd rs1 rs2
  | ipow rd rs1 rs2 => exact decode_wordRRR rfl rd rs1 rs2
  | fpow rd rs1 rs2 => exact decode_wordRRR rfl rd rs1 rs2
  | scale rd rs1 => exact decode_wordRR rfl rd rs1
  | fromint rd rs1 => exact decode_wordRR rfl rd rs1
  | sqrt rd rs1 => exact decode_wordRR rfl rd rs1
  | ln rd rs1 => exact decode_wordRR rfl rd rs1
  | exp rd rs1 => exact decode_wordRR rfl rd rs1
  | sin rd rs1 => exact decode_wordRR rfl rd rs1
  | cos rd rs1 => exact decode_wordRR rfl rd rs1
  | tan rd rs1 => exact decode_wordRR rfl rd rs1
  | csc rd rs1 => exact decode_wordRR rfl rd rs1
  | sec rd rs1 => exact decode_wordRR rfl rd rs1
  | cot rd rs1 => exact decode_wordRR rfl rd rs1
  | ldk rd k => exact decode_wordRK rfl rd hwf
  | rbin rs1 => exact decode_wordS rfl rs1
  | rhex rs1 => exact decode_wordS rfl rs1
  | rdec rs1 => exact decode_wordS rfl rs1

/-- Settles O2: the word has its form's shape, so it is the form's word for its own fields, and that is the encoding of the
command that the row builds from them. -/
theorem encodeOfDecode : Obligations.EncodeOfDecode := by
  intro c i hd
  obtain ⟨row, hlookup, ⟨hshape, hk⟩, rfl⟩ := (decode_eq_ok_iff c i).mp hd
  have hmem := mem_of_lookup_opTable hlookup
  exact ⟨wellFormed_instr_of_mem_opTable _ hmem c hk, (encode_instr_of_mem_opTable _ hmem c rfl).trans hshape⟩

/-- Settles O4: the forms and their OP values are listed, and an OP value is reserved when it is no key of the map. -/
theorem legalCommandWords : Obligations.LegalCommandWords := by
  constructor
  · intro c
    rw [decode_isOk_iff, Form.exists_iff, Form.ops_rrr, Form.ops_rr, Form.ops_rk, Form.ops_s, constantIndexOk_rs2Field_iff]
    simp [Form.mask]
  · intro op hop
    have hfield : ∀ c : Word, c.toNat % 256 = op ↔ opField c = BitVec.ofNat 8 op := fun c => by
      rw [← toNat_opField, ← BitVec.toNat_inj, BitVec.toNat_ofNat, Nat.mod_eq_of_lt hop]
    calc (∀ c i, c.toNat % 256 = op → decode c ≠ .ok i)
      _ ↔ ¬ ∃ c i, opField c = BitVec.ofNat 8 op ∧ decode c = .ok i := by
        simp only [hfield, not_exists, not_and, ne_eq]
      _ ↔ BitVec.ofNat 8 op ∉ opTable.map Prod.fst := by rw [exists_decode_opField_iff]
      _ ↔ _ := by
        simp [opTable, ← BitVec.toNat_inj, Nat.mod_eq_of_lt hop]
        omega

/-- Settles O3: the decoder is run on the nineteen words. -/
theorem workedEncodings : Obligations.WorkedEncodings := by
  constructor
  · and_intros <;> decide
  · simp only [List.forall_mem_cons, List.not_mem_nil, false_imp_iff, implies_true, and_true]
    and_intros <;> decide

end Sys2Proof

namespace Sys2Proof.Machine

/-- Settles O5: nothing stands before the completion, and `withFetchWord` leaves no event pending. -/
theorem stepRunsDecodedCommand : Obligations.StepRunsDecodedCommand := by
  have hstep : ∀ (s : State) (c : Word) (i : Instr), s.executing = some c → decode c = .ok i →
      NothingComesFirst s.pending → step s = exec i s := by
    intro s c i hx hd hfirst
    rw [step_busy hx, busyStep_of_nothingComesFirst c hfirst, complete_ok hd]
  refine ⟨hstep, fun s nbits w i hi => ?_⟩
  obtain ⟨c, hw, hd⟩ := decodeTableWord_eq_some hi
  rw [withFetchWord_of_tableWord hw]
  exact ⟨c, hd, hstep _ c i rfl hd trivial⟩

/-- Settles O49: the state after the command field by field, with the frame of the window. -/
theorem destinationCommandFrame : Obligations.DestinationCommandFrame := by
  intro i rd s hd hwf
  obtain ⟨r, hill, hexec⟩ := exec_writes_destination hd hwf s
  exact ⟨_, hexec, rfl, rfl, hill, fun q hq => readReg_afterCommand_other r.val r.fl s hq, rfl, rfl, rfl, rfl, rfl, rfl,
    fun off _ h4 hstatus hflags hdest => readWindow_afterCommand r.val r.fl s h4 hstatus hflags hdest⟩

end Sys2Proof.Machine
end

section
/-! SUPPORT. The command word that the statements write out, as the word of its form, and what it decodes to
(R71, R74, R78). -/

namespace Sys2Proof.Machine

/-- The fields do not overlap, so that their sum is their union (R71). -/
theorem formWord_eq_commandWord {op rd rs1 rs2 : Nat} (hop : op < 256) (hrd : rd < 16) (hrs1 : rs1 < 16) (hrs2 : rs2 < 16) :
    formWord op rd rs1 rs2 =
      commandWord (BitVec.ofNat 8 op) (BitVec.ofNat 4 rd) (BitVec.ofNat 4 rs1) (BitVec.ofNat 4 rs2) := by
  have hsum : (op ||| rd <<< 8 ||| rs1 <<< 12 ||| rs2 <<< 16) = op + 2 ^ 8 * rd + 2 ^ 12 * rs1 + 2 ^ 16 * rs2 := by
    rw [Nat.or_comm op, ← Nat.shiftLeft_add_eq_or_of_lt (by omega), Nat.or_comm _ (rs1 <<< 12),
      ← Nat.shiftLeft_add_eq_or_of_lt (by omega), Nat.or_comm _ (rs2 <<< 16),
      ← Nat.shiftLeft_add_eq_or_of_lt (by omega)]
    omega
  apply BitVec.eq_of_toNat_eq
  rw [formWord, ← hsum]
  simp (disch := omega) only [commandWord, BitVec.toNat_or, BitVec.toNat_shiftLeft, BitVec.toNat_setWidth,
    BitVec.toNat_ofNat, Nat.shiftLeft_eq, Nat.mod_eq_of_lt] at hsum ⊢
  exact Nat.mod_eq_of_lt (by omega)

section
variable {op : Nat} (hop : op < 256)
include hop

theorem decode_formWord_rrr {build : Reg → Reg → Reg → Instr}
    (h : opTable.lookup (BitVec.ofNat 8 op) = some (.rrr build)) (rd rs1 rs2 : Reg) :
    decode (formWord op rd.val rs1.val rs2.val) = .ok (build rd rs1 rs2) := by
  rw [formWord_eq_commandWord hop (by omega) (by omega) (by omega)]
  exact decode_wordRRR h rd rs1 rs2

theorem decode_formWord_rr {build : Reg → Reg → Instr}
    (h : opTable.lookup (BitVec.ofNat 8 op) = some (.rr build)) (rd rs1 : Reg) :
    decode (formWord op rd.val rs1.val 0) = .ok (build rd rs1) := by
  rw [formWord_eq_commandWord hop (by omega) (by omega) (by omega)]
  exact decode_wordRR h rd rs1

theorem decode_formWord_rk {build : Reg → BitVec 4 → Instr}
    (h : opTable.lookup (BitVec.ofNat 8 op) = some (.rk build)) (rd : Reg) {k : Nat} (hk : k ≤ 8) :
    decode (formWord op rd.val 0 k) = .ok (build rd (BitVec.ofNat 4 k)) := by
  rw [formWord_eq_commandWord hop (by omega) (by omega) (by omega)]
  refine decode_wordRK h rd ?_
  simp [constantIndexOk]
  omega

/-- An index above 8 makes the word illegal (R73, R78). -/
theorem decode_formWord_rk_illegal {build : Reg → BitVec 4 → Instr}
    (h : opTable.lookup (BitVec.ofNat 8 op) = some (.rk build)) (rd : Reg) {k : Nat} (hk : 9 ≤ k) (hk' : k ≤ 15)
    (i : Instr) :
    decode (formWord op rd.val 0 k) ≠ .ok i := by
  rw [formWord_eq_commandWord hop (by omega) (by omega) (by omega), ne_eq, decode_eq_ok_iff]
  rintro ⟨row, hlookup, ⟨-, hindex⟩, -⟩
  rw [opField_commandWord, h] at hlookup
  obtain rfl := Option.some.inj hlookup
  have hindex := hindex rfl
  simp [constantIndexOk] at hindex
  omega

end

end Sys2Proof.Machine
end

section
/-! SUPPORT. The arithmetic engine read on plain integers: the long division, the sign and magnitude of the multiply and the
divide, the scan of the leading bit, and the normalization (R109 to R122). -/

namespace Sys2Proof.Machine

/-! The completion of a command that has a destination (R85). -/

theorem finish_eq (rd : Reg) (r : Fx Word) (s : State) : finish rd r s = .next (afterCommand rd r.val r.fl s) := rfl

/-- What a command leaves whose result is an exact integer that is narrowed (R10, R221). -/
theorem finish_narrow (rd : Reg) (v : Int) (s : State) :
    finish rd (narrow v) s = .next (afterCommand rd (BitVec.ofInt 32 v) (Plain.overflow v) s) := by
  rw [finish_eq, narrow_fl, narrow_val]

/-! The long division (R111, R112). -/

/-- One round of the loop: the next bit of the dividend enters the remainder, and the quotient gains a bit where the divisor
can be taken off. -/
theorem udiv64Loop_succ (n d i k r : Nat) :
    udiv64Loop n d (i + 1) (2 ^ (i + 1) * k) r =
      if d ≤ (2 * r + n / 2 ^ i % 2) % 2 ^ 64
      then udiv64Loop n d i (2 ^ i * (2 * k + 1)) ((2 * r + n / 2 ^ i % 2) % 2 ^ 64 - d)
      else udiv64Loop n d i (2 ^ i * (2 * k)) ((2 * r + n / 2 ^ i % 2) % 2 ^ 64) := by
  have hr : (r <<< 1) ||| (n >>> i % 2) = 2 * r + n / 2 ^ i % 2 := by
    rw [← Nat.shiftLeft_add_eq_or_of_lt (by omega), Nat.shiftRight_eq_div_pow, Nat.shiftLeft_eq, Nat.mul_comm r]
  have hset : 2 ^ (i + 1) * k ||| 1 <<< i = 2 ^ i * (2 * k + 1) := by
    rw [Nat.one_shiftLeft, ← Nat.two_pow_add_eq_or_of_lt (Nat.pow_lt_pow_succ (by decide))]
    ring
  have hkeep : 2 ^ (i + 1) * k = 2 ^ i * (2 * k) := by ring
  rw [udiv64Loop, hr, hset, hkeep]

/-- The rounds left divide what the remainder and the bits left make up, below a quotient that is a multiple of `2 ^ i`. -/
theorem udiv64Loop_eq {n d r : Nat} (hd : d ≤ 2 ^ 31) (hr : r < d) (i k : Nat) :
    udiv64Loop n d i (2 ^ i * k) r = 2 ^ i * k + (2 ^ i * r + n % 2 ^ i) / d := by
  induction i generalizing k r with
  | zero => simp [udiv64Loop, Nat.mod_one, Nat.div_eq_of_lt hr]
  | succ i ih =>
    rw [udiv64Loop_succ, Nat.mod_eq_of_lt (by omega)]
    have hbits : 2 ^ (i + 1) * r + n % 2 ^ (i + 1) = 2 ^ i * (2 * r + n / 2 ^ i % 2) + n % 2 ^ i := by
      rw [Nat.mod_pow_succ]
      ring
    have hr' : 2 * r + n / 2 ^ i % 2 < 2 * d := by omega
    rw [hbits]
    generalize 2 * r + n / 2 ^ i % 2 = r' at hr' ⊢
    split
    · have htake : 2 ^ i * r' + n % 2 ^ i = 2 ^ i * (r' - d) + n % 2 ^ i + 2 ^ i * d := by
        conv_lhs => rw [← Nat.sub_add_cancel ‹d ≤ r'›]
        ring
      rw [ih (by omega), htake, Nat.add_mul_div_right _ _ (by omega)]
      ring
    · rw [ih (by omega)]
      ring

/-- With a zero divisor every round sets its bit. -/
theorem udiv64Loop_zero (n i k r : Nat) : udiv64Loop n 0 i (2 ^ i * k) r = 2 ^ i * k + (2 ^ i - 1) := by
  induction i generalizing k r with
  | zero => rfl
  | succ i ih =>
    have hpos : 0 < 2 ^ i := Nat.two_pow_pos i
    rw [udiv64Loop_succ, if_pos (Nat.zero_le _), ih, Nat.pow_succ, Nat.mul_assoc, Nat.mul_add]
    omega

theorem udiv64_eq_div {n d : Nat} (hn : n < 2 ^ 64) (hpos : 0 < d) (hd : d ≤ 2 ^ 31) : udiv64 n d = n / d :=
  calc udiv64 n d
    _ = (n % 2 ^ 64) / d := by simpa [udiv64] using udiv64Loop_eq (n := n) hd hpos 64 0
    _ = n / d := by rw [Nat.mod_eq_of_lt hn]

theorem udiv64_zero (n : Nat) : udiv64 n 0 = 2 ^ 64 - 1 := udiv64Loop_zero n 64 0 0

/-! Sign and magnitude (R10, R109, R113). -/

theorem applySign_mul (s t : Bool) (m n : Nat) : applySign s m * applySign t n = applySign (s != t) (m * n) := by
  cases s <;> cases t <;> simp [applySign]

theorem applySign_tdiv (s t : Bool) (m n : Nat) : (applySign s m).tdiv (applySign t n) = applySign (s != t) (m / n) := by
  cases s <;> cases t <;> simp [applySign, Int.neg_tdiv, Int.tdiv_neg]

/-- The factor 65536 of the Q16.16 format, as a magnitude with its sign. -/
theorem applySign_scale : applySign false 65536 = 65536 := rfl

theorem applySign_neg_mag (a : Word) : applySign (neg a) (mag a) = a.toInt := by
  simp only [applySign, neg, mag, decide_eq_true_eq]
  split <;> omega

theorem mag_le (a : Word) : mag a ≤ 2 ^ 31 := by
  have := toInt_range a
  rw [mag]
  omega

theorem mag_eq_zero_iff (a : Word) : mag a = 0 ↔ a.toInt = 0 := Int.natAbs_eq_zero

/-- A word sees its sign and the low half of the quotient alone (R113). -/
theorem wrap32_applySign_mod (s : Bool) (q : Nat) : wrap32 (applySign s (q % 2 ^ 32)) = wrap32 (applySign s q) := by
  apply BitVec.eq_of_toInt_eq
  simp only [wrap32, BitVec.toInt_ofInt, Int.bmod]
  cases s with
  | false => simp only [applySign, Bool.false_eq_true, if_false]; omega
  | true => simp only [applySign, if_true]; omega

theorem fxMul_eq (a b : Word) : fxMul a b = narrow (Plain.product a.toInt b.toInt) := by
  have hshift : (mag a * mag b) >>> 16 = mag a * mag b / 65536 := Nat.shiftRight_eq_div_pow _ _
  rw [fxMul, hshift, Plain.product, ← applySign_neg_mag a, ← applySign_neg_mag b, applySign_mul,
    ← applySign_scale, applySign_tdiv, Bool.bne_false]

/-- A nonzero divisor: the exact quotient rounded toward zero. -/
theorem fxDiv_eq_narrow (a : Word) {b : Word} (hb : b.toInt ≠ 0) :
    fxDiv a b = narrow (Int.tdiv (a.toInt * 65536) b.toInt) := by
  have hmag : mag b ≠ 0 := (mag_eq_zero_iff b).not.mpr hb
  have ha := mag_le a
  have hq : udiv64 (mag a <<< 16) (mag b) = mag a * 65536 / mag b := by
    rw [Nat.shiftLeft_eq, udiv64_eq_div (by omega) (Nat.pos_of_ne_zero hmag) (mag_le b)]
  have hv : Int.tdiv (a.toInt * 65536) b.toInt = applySign (neg a != neg b) (mag a * 65536 / mag b) := by
    rw [← applySign_neg_mag a, ← applySign_neg_mag b, ← applySign_scale, applySign_mul, applySign_tdiv, Bool.bne_false]
  simp only [fxDiv, hq, hmag, if_false, wrap32_applySign_mod, hv]
  rfl

/-- A zero divisor: the all-ones quotient of the long division, wrapped under the sign of the dividend. -/
theorem fxDiv_zero (a : Word) {b : Word} (hb : b.toInt = 0) :
    fxDiv a b = ⟨if a.toInt < 0 then 1#32 else 0xFFFFFFFF#32, flagDZ⟩ := by
  have hmag : mag b = 0 := (mag_eq_zero_iff b).mpr hb
  have hsign : (neg a != neg b) = decide (a.toInt < 0) := by simp [neg, hb]
  have hval : ∀ s, wrap32 (applySign s ((2 ^ 64 - 1) % 2 ^ 32)) = if s then 1#32 else 0xFFFFFFFF#32 := by decide
  simp only [fxDiv, hmag, hsign, udiv64_zero, hval, if_true, decide_eq_true_eq]

/-- `fx_div` is the plain quotient (R113). -/
theorem fxDiv_eq (a b : Word) :
    fxDiv a b = ⟨(Plain.quotient a.toInt b.toInt).1, (Plain.quotient a.toInt b.toInt).2⟩ := by
  by_cases hb : b.toInt = 0
  · rw [fxDiv_zero a hb, hb]
    rfl
  · rw [fxDiv_eq_narrow a hb, Fx.ext_iff']
    simp [Plain.quotient, hb]

theorem toInt_eq_toNat_of_nonneg {w : Word} (hw : 0 ≤ w.toInt) : w.toInt = w.toNat :=
  BitVec.toInt_eq_toNat_of_lt (BitVec.toInt_pos_iff.mp hw)

/-- A quotient of words that are not negative, where it fits. -/
theorem fxDiv_of_nonneg {a b : Word} (ha : 0 ≤ a.toInt) (hb : 0 < b.toInt) (hfit : a.toNat * 65536 / b.toNat < 2 ^ 31) :
    fxDiv a b = .pure (BitVec.ofNat 32 (a.toNat * 65536 / b.toNat)) := by
  have hv : Int.tdiv (a.toInt * 65536) b.toInt = (a.toNat * 65536 / b.toNat : Nat) := by
    rw [toInt_eq_toNat_of_nonneg ha, toInt_eq_toNat_of_nonneg hb.le]
    exact (Int.ofNat_tdiv _ _).symm
  rw [fxDiv_eq_narrow a hb.ne', hv]
  generalize a.toNat * 65536 / b.toNat = q at hfit ⊢
  rw [narrow_fits (by omega), BitVec.ofInt_natCast]
  rfl

/-! The operands floored to 1/256 (R115, R117). -/

theorem dropLow8_eq (a : Word) : dropLow8 a = a.toInt / 256 :=
  (Int.shiftRight_natCast_right a.toInt 8).trans (Int.shiftRight_eq_div_pow a.toInt 8)

theorem dropLow8_eq_zero_iff (a : Word) : dropLow8 a = 0 ↔ 0 ≤ a.toInt ∧ a.toInt ≤ 255 := by
  rw [dropLow8_eq]
  omega

theorem fxFmul_eq (a b : Word) : fxFmul a b = narrow ((a.toInt / 256) * (b.toInt / 256)) := by
  rw [fxFmul, dropLow8_eq, dropLow8_eq]

/-- A divisor that the shift makes zero: the signed maximum (R117). -/
theorem fxFdiv_sentinel (a : Word) {b : Word} (hb : 0 ≤ b.toInt ∧ b.toInt ≤ 255) :
    fxFdiv a b = ⟨if a.toInt < 0 then NMAX else MAX, flagDZ⟩ := by
  rw [fxFdiv, if_pos ((dropLow8_eq_zero_iff b).mpr hb)]
  simp only [ge_iff_le, ← not_lt, ite_not]

/-- Any other divisor: the quotient of the floored operands, rounded toward zero (R117). -/
theorem fxFdiv_eq_narrow (a : Word) {b : Word} (hb : ¬ (0 ≤ b.toInt ∧ b.toInt ≤ 255)) :
    fxFdiv a b = narrow (Int.tdiv (a.toInt / 256 * 65536) (b.toInt / 256)) := by
  rw [fxFdiv, if_neg ((dropLow8_eq_zero_iff b).not.mpr hb), dropLow8_eq, dropLow8_eq]
  rfl

/-! The leading bit (R119). -/

/-- The scan stops at the leading bit. -/
theorem scaleScan_eq_log2 {u : Nat} (hu : u ≠ 0) {k : Nat} (hk : u < 2 ^ k) : scaleScan u k = (Nat.log2 u : Int) - 16 := by
  induction k with
  | zero => simp at hk; exact absurd hk hu
  | succ k ih =>
    rw [scaleScan]
    split
    · rw [(Nat.log2_eq_iff hu).mpr ⟨Nat.ge_two_pow_of_testBit ‹_›, hk⟩]
    · refine ih (Nat.lt_of_not_le fun hle => ‹¬ u.testBit k = true› ?_)
      exact Nat.testBit_of_two_pow_le_and_two_pow_add_one_gt hle hk

theorem fxScaleRaw_eq_log2 {a : Word} (ha : a.toNat ≠ 0) : fxScaleRaw a = (Nat.log2 a.toNat : Int) - 16 :=
  scaleScan_eq_log2 ha a.isLt

theorem toNat_ne_zero_of_pos {a : Word} (ha : 0 < a.toInt) : a.toNat ≠ 0 := by
  have := toInt_eq_toNat_of_nonneg ha.le
  omega

/-- A positive word has bit 31 clear. -/
theorem log2_toNat_le_of_pos {a : Word} (ha : 0 < a.toInt) : Nat.log2 a.toNat ≤ 30 := by
  have hlt : 2 * a.toNat < 2 ^ 32 := BitVec.toInt_pos_iff.mp ha.le
  exact Nat.lt_succ_iff.mp ((Nat.log2_lt (toNat_ne_zero_of_pos ha)).mpr (by omega))

/-- A negative word has bit 31 (R120). -/
theorem fxScaleRaw_of_neg {a : Word} (ha : a.toInt < 0) : fxScaleRaw a = 15 := by
  have hlow : 2 ^ 32 ≤ 2 * a.toNat := BitVec.toInt_neg_iff.mp ha
  have hlog : Nat.log2 a.toNat = 31 := (Nat.log2_eq_iff (by omega)).mpr ⟨by omega, a.isLt⟩
  rw [fxScaleRaw_eq_log2 (by omega), hlog]
  rfl

/-- The scan of zero finds no bit (R120). -/
theorem fxScaleRaw_of_zero {a : Word} (ha : a.toInt = 0) : fxScaleRaw a = -16 := by
  obtain rfl : a = 0#32 := BitVec.eq_of_toInt_eq ha
  decide

/-- The floor of the base-2 logarithm, in units of 2^-16 (R119). -/
theorem fxScaleRaw_of_pos {a : Word} (ha : 0 < a.toInt) :
    -16 ≤ fxScaleRaw a ∧ fxScaleRaw a ≤ 14 ∧
    (2 : Int) ^ (fxScaleRaw a + 16).toNat ≤ a.toInt ∧ a.toInt < (2 : Int) ^ (fxScaleRaw a + 17).toNat := by
  have hne := toNat_ne_zero_of_pos ha
  have hlog := log2_toNat_le_of_pos ha
  have hlow : 2 ^ Nat.log2 a.toNat ≤ a.toNat := Nat.log2_self_le hne
  have hhigh : a.toNat < 2 ^ (Nat.log2 a.toNat + 1) := Nat.lt_log2_self
  have hexp : ((Nat.log2 a.toNat : Int) - 16 + 16).toNat = Nat.log2 a.toNat := by omega
  have hexp' : ((Nat.log2 a.toNat : Int) - 16 + 17).toNat = Nat.log2 a.toNat + 1 := by omega
  rw [fxScaleRaw_eq_log2 hne, hexp, hexp', toInt_eq_toNat_of_nonneg ha.le]
  exact ⟨by omega, by omega, by exact_mod_cast hlow, by exact_mod_cast hhigh⟩

/-- DOM is raised exactly for an operand that is not positive (R120). -/
theorem fxScale_eq (a : Word) :
    fxScale a = ⟨BitVec.ofInt 32 (fxScaleRaw a), if a.toInt ≤ 0 then flagDOM else 0#4⟩ := by
  simp only [fxScale, wrap32, raiseIf, decide_eq_true_eq]

/-! The normalization (R121, R122). -/

/-- The mantissa of a nonzero number is in [1, 2). -/
theorem mantissa_range {x : Nat} (hx : x ≠ 0) :
    65536 ≤ Plain.mantissa x (Nat.log2 x) ∧ Plain.mantissa x (Nat.log2 x) ≤ 131071 := by
  have hlow := Nat.log2_self_le hx
  have hhigh : x < 2 ^ (Nat.log2 x + 1) := Nat.lt_log2_self
  have hpos : 0 < 2 ^ Nat.log2 x := Nat.two_pow_pos _
  rw [Nat.pow_succ] at hhigh
  constructor
  · rw [Plain.mantissa, Nat.le_div_iff_mul_le hpos]
    omega
  · rw [Plain.mantissa, Nat.div_le_iff_le_mul_add_pred hpos]
    omega

theorem mantissa_eq_shift (x k : Nat) :
    Plain.mantissa x k = if 16 ≤ k then x / 2 ^ (k - 16) else x * 2 ^ (16 - k) := by
  have hsplit : (65536 : Nat) = 2 ^ 16 := rfl
  rw [Plain.mantissa, hsplit]
  split
  · conv_lhs => rw [← Nat.sub_add_cancel ‹16 ≤ k›, Nat.pow_add]
    exact Nat.mul_div_mul_right x _ (by decide)
  · have hk : 16 = 16 - k + k := by omega
    conv_lhs => rw [hk, Nat.pow_add, ← Nat.mul_assoc]
    exact Nat.mul_div_cancel _ (Nat.two_pow_pos k)

theorem toNat_pow2 {k : Nat} (hk : k ≤ 30) : (pow2 ((k : Int) - 16)).toNat = 2 ^ k := by
  have hlt : 2 ^ k < 2 ^ 32 := Nat.pow_lt_pow_right (by decide) (by omega)
  have hexp : ((k : Int) - 16 + 16).toNat = k := by omega
  rw [pow2, hexp, Nat.one_shiftLeft, BitVec.toNat_ofNat, Nat.mod_eq_of_lt hlt]

theorem fxNorm_eq {x : Word} (hx : 0 < x.toInt) :
    fxNorm x = .pure (BitVec.ofNat 32 (Plain.mantissa x.toNat (Nat.log2 x.toNat)), (Nat.log2 x.toNat : Int) - 16) := by
  have hne := toNat_ne_zero_of_pos hx
  have hlog := log2_toNat_le_of_pos hx
  obtain ⟨-, hmantissa⟩ := mantissa_range hne
  have hpow := toNat_pow2 hlog
  have hpos : 0 < (pow2 ((Nat.log2 x.toNat : Int) - 16)).toInt := by
    have hle : 2 ^ Nat.log2 x.toNat ≤ 2 ^ 30 := Nat.pow_le_pow_right (by decide) hlog
    rw [BitVec.toInt_eq_toNat_of_lt (by rw [hpow]; omega), hpow]
    positivity
  have hdiv := fxDiv_of_nonneg hx.le hpos
  rw [hpow] at hdiv
  rw [fxNorm, fxScaleRaw_eq_log2 hne, hdiv (hmantissa.trans_lt (by decide)), pure_andThen]
  rfl

end Sys2Proof.Machine
end

section
/-! PROOF. The statements about the arithmetic commands and the functions behind them (40_arith.md). -/

namespace Sys2Proof.Machine

/-! The functions behind the commands. -/

/-- Settles O29, by induction on the rounds of the loop: `udiv64Loop_eq` and `udiv64Loop_zero`. -/
theorem longDivisionIsFloorQuotient : Obligations.LongDivisionIsFloorQuotient := by
  intro n d hn hd
  exact ⟨fun hpos => udiv64_eq_div hn hpos hd, udiv64_zero n⟩

/-- Settles O30: the mantissa of the leading bit, read as a shift. -/
theorem normalizedMantissa : Obligations.NormalizedMantissa := by
  intro x hx s
  have hne := toNat_ne_zero_of_pos hx
  obtain ⟨hlow, hhigh⟩ := mantissa_range hne
  have hs : s = (Nat.log2 x.toNat : Int) - 16 := fxScaleRaw_eq_log2 hne
  have hval : (fxNorm x).val.1.toNat = Plain.mantissa x.toNat (Nat.log2 x.toNat) := by
    rw [fxNorm_eq hx]
    exact Nat.mod_eq_of_lt (by omega)
  have hshift : Plain.mantissa x.toNat (Nat.log2 x.toNat) =
      if 0 ≤ s then x.toNat / 2 ^ s.toNat else x.toNat * 2 ^ (-s).toNat := by
    have hright : s.toNat = Nat.log2 x.toNat - 16 := by omega
    have hleft : (-s).toNat = 16 - Nat.log2 x.toNat := by omega
    have hsign : 0 ≤ s ↔ 16 ≤ Nat.log2 x.toNat := by omega
    rw [mantissa_eq_shift, hright, hleft]
    exact (if_congr hsign rfl rfl).symm
  rw [hval]
  exact ⟨by rw [fxNorm_eq hx]; rfl, by rw [fxNorm_eq hx, hs]; rfl, hshift, hlow, hhigh⟩

/-- Settles O31: the exact product and quotient of ONE; the two worked ones are evaluated. -/
theorem identitiesOfOne : Obligations.IdentitiesOfOne := by
  have hone : (0x00010000#32).toInt = 65536 := by decide
  refine ⟨fun x => ⟨?_, ?_⟩, by decide, by decide⟩
  · have hprod : Plain.product 65536 x.toInt = x.toInt := Int.mul_tdiv_cancel_left _ (by decide)
    rw [fxMul_eq, hone, hprod, narrow_fits (toInt_range x), ofInt_toInt]
    rfl
  · have hquot : Int.tdiv (x.toInt * 65536) 65536 = x.toInt := Int.mul_tdiv_cancel _ (by decide)
    rw [fxDiv_eq_narrow x (by rw [hone]; decide), hone, hquot, narrow_fits (toInt_range x), ofInt_toInt]
    rfl

/-! The commands. -/

/-- Settles O20: ADD narrows the exact sum. -/
theorem addCommand : Obligations.AddCommand := fun rd rs1 rs2 s =>
  ⟨decode_formWord_rrr (by decide) rfl rd rs1 rs2, finish_narrow rd _ s⟩

/-- Settles O21: SUB narrows the exact difference. -/
theorem subCommand : Obligations.SubCommand := fun rd rs1 rs2 s =>
  ⟨decode_formWord_rrr (by decide) rfl rd rs1 rs2, finish_narrow rd _ s⟩

/-- Settles O22: the sign and magnitude product is the exact one. -/
theorem mulCommand : Obligations.MulCommand := by
  intro rd rs1 rs2 s
  refine ⟨decode_formWord_rrr (by decide) rfl rd rs1 rs2, ?_⟩
  calc exec (.mul rd rs1 rs2) s
    _ = finish rd (fxMul (readReg s rs1) (readReg s rs2)) s := rfl
    _ = _ := by rw [fxMul_eq, finish_narrow]

/-- Settles O23: the long division of the magnitudes is the plain quotient. -/
theorem divCommand : Obligations.DivCommand := by
  intro rd rs1 rs2 s
  refine ⟨decode_formWord_rrr (by decide) rfl rd rs1 rs2, ?_⟩
  calc exec (.div rd rs1 rs2) s
    _ = finish rd (fxDiv (readReg s rs1) (readReg s rs2)) s := rfl
    _ = _ := by rw [fxDiv_eq, finish_eq]

/-- Settles O24: the shift by 8 is the floor of the quotient by 256. -/
theorem fmulCommand : Obligations.FmulCommand := by
  intro rd rs1 rs2 s
  refine ⟨decode_formWord_rrr (by decide) rfl rd rs1 rs2, ?_⟩
  calc exec (.fmul rd rs1 rs2) s
    _ = finish rd (fxFmul (readReg s rs1) (readReg s rs2)) s := rfl
    _ = _ := by rw [fxFmul_eq, finish_narrow]

/-- Settles O25: the shifted divisor is zero exactly for a divisor in [0, 255]. -/
theorem fdivCommand : Obligations.FdivCommand := by
  intro rd rs1 rs2 s
  refine ⟨decode_formWord_rrr (by decide) rfl rd rs1 rs2, ?_⟩
  intro a b v
  have hexec : exec (.fdiv rd rs1 rs2) s = finish rd (fxFdiv (readReg s rs1) (readReg s rs2)) s := rfl
  by_cases hb : 0 ≤ b ∧ b ≤ 255
  · rw [if_pos hb, hexec, fxFdiv_sentinel _ hb]
    rfl
  · rw [if_neg hb, hexec, fxFdiv_eq_narrow _ hb, finish_narrow]

/-- Settles O27: `a * 65536` fits exactly when `a` is in [-32768, 32767]. -/
theorem fromintCommand : Obligations.FromintCommand := by
  intro rd rs1 s
  refine ⟨decode_formWord_rr (by decide) rfl rd rs1, ?_⟩
  have hfl : ∀ a : Int, Plain.overflow (a * 65536) = if -32768 ≤ a ∧ a ≤ 32767 then 0#4 else flagOV := fun a =>
    if_congr (by omega) rfl rfl
  calc exec (.fromint rd rs1) s
    _ = finish rd (narrow ((readReg s rs1).toInt * 65536)) s := rfl
    _ = _ := by rw [finish_narrow, hfl]

/-- Settles O26: the leading bit of the word bounds its value; a negative word has bit 31 and zero has none. -/
theorem scaleCommand : Obligations.ScaleCommand := by
  intro rd rs1 s
  have hexec : exec (.scale rd rs1) s = finish rd (fxScale (readReg s rs1)) s := rfl
  refine ⟨decode_formWord_rr (by decide) rfl rd rs1, fxScaleRaw (readReg s rs1), ?_, fxScaleRaw_of_neg,
    fxScaleRaw_of_zero, fxScaleRaw_of_pos⟩
  rw [hexec, fxScale_eq, finish_eq]

/-- Settles O28: the nine constants are compared, and above them the decoder finds none. -/
theorem ldkCommand : Obligations.LdkCommand := by
  constructor
  · intro rd k s
    refine ⟨decode_formWord_rk (by decide) rfl rd (by omega), runRK_some ?_ rd s⟩
    revert k
    decide
  · intro rd k hk hk'
    have hillegal := decode_formWord_rk_illegal (op := 9) (by decide) rfl rd hk hk'
    cases hd : decode (formWord 9 rd.val 0 k) with
    | error e => rfl
    | ok i => exact absurd hd (hillegal i)

end Sys2Proof.Machine
end

section
/-! SUPPORT. The exact primitives on operands whose result fits: they answer it and raise nothing. The transcendental
functions are chains of such steps (R141 to R158). -/

namespace Sys2Proof.Machine

/-! Words and the integers they read as (R10). -/

theorem ofNat_eq_wrap32 (n : Nat) : BitVec.ofNat 32 n = wrap32 n := (BitVec.ofInt_natCast 32 n).symm

theorem toInt_wrap32 {v : Int} (hv : -2147483648 ≤ v ∧ v ≤ 2147483647) : (wrap32 v).toInt = v := toInt_ofInt_fits hv

theorem wrap32_inj {v w : Int} (hv : -2147483648 ≤ v ∧ v ≤ 2147483647) (hw : -2147483648 ≤ w ∧ w ≤ 2147483647) :
    wrap32 v = wrap32 w ↔ v = w := by
  rw [← BitVec.toInt_inj, toInt_wrap32 hv, toInt_wrap32 hw]

theorem toNat_toInt_of_nonneg {w : Word} (hw : 0 ≤ w.toInt) : w.toInt.toNat = w.toNat := by
  rw [toInt_eq_toNat_of_nonneg hw, Int.toNat_natCast]

theorem narrow_eq_pure {v : Int} (hv : -2147483648 ≤ v ∧ v ≤ 2147483647) : narrow v = .pure (wrap32 v) := narrow_fits hv

/-! The primitives (R102 to R113). -/

theorem fxAdd_wrap32 {v w : Int} (hv : -2147483648 ≤ v ∧ v ≤ 2147483647) (hw : -2147483648 ≤ w ∧ w ≤ 2147483647)
    (hfit : -2147483648 ≤ v + w ∧ v + w ≤ 2147483647) : fxAdd (wrap32 v) (wrap32 w) = .pure (wrap32 (v + w)) := by
  rw [fxAdd, toInt_wrap32 hv, toInt_wrap32 hw, narrow_eq_pure hfit]

theorem fxSub_wrap32 {v w : Int} (hv : -2147483648 ≤ v ∧ v ≤ 2147483647) (hw : -2147483648 ≤ w ∧ w ≤ 2147483647)
    (hfit : -2147483648 ≤ v - w ∧ v - w ≤ 2147483647) : fxSub (wrap32 v) (wrap32 w) = .pure (wrap32 (v - w)) := by
  rw [fxSub, toInt_wrap32 hv, toInt_wrap32 hw, narrow_eq_pure hfit]

theorem fxMul_wrap32 {m n : Nat} (hm : m ≤ 2147483647) (hn : n ≤ 2147483647) (hfit : m * n / 65536 ≤ 2147483647) :
    fxMul (wrap32 m) (wrap32 n) = .pure (wrap32 (m * n / 65536 : Nat)) := by
  have hprod : Plain.product m n = (m * n / 65536 : Nat) := Int.ofNat_tdiv (m * n) 65536
  rw [fxMul_eq, toInt_wrap32 (by omega), toInt_wrap32 (by omega), hprod, narrow_eq_pure (by omega)]

theorem fxDiv_wrap32 {m n : Nat} (hm : m ≤ 2147483647) (hpos : 0 < n) (hn : n ≤ 2147483647)
    (hfit : m * 65536 / n ≤ 2147483647) :
    fxDiv (wrap32 m) (wrap32 n) = .pure (wrap32 (m * 65536 / n : Nat)) := by
  have hne : (wrap32 n).toInt ≠ 0 := by rw [toInt_wrap32 (by omega)]; omega
  have hquot : Int.tdiv ((m : Int) * 65536) n = (m * 65536 / n : Nat) := Int.ofNat_tdiv (m * 65536) n
  rw [fxDiv_eq_narrow _ hne, toInt_wrap32 (by omega), toInt_wrap32 (by omega), hquot]
  generalize m * 65536 / n = q at hfit ⊢
  exact narrow_eq_pure (by omega)

theorem fxInt_eq {n : Int} (hn : -32768 ≤ n ∧ n ≤ 32767) : fxInt n = .pure (wrap32 (n * 65536)) := by
  rw [fxInt, fxFromint, toInt_wrap32 (by omega)]
  exact narrow_eq_pure (by omega)

/-- A term divided by an integer is its plain quotient (R145, R157). -/
theorem fxDivInt_wrap32 {m : Nat} {d : Int} (hm : m ≤ 2147483647) (hd : 0 < d ∧ d ≤ 32767) :
    fxDivInt (wrap32 m) d = .pure (wrap32 (m / d.toNat : Nat)) := by
  have hscale : d * 65536 = (d.toNat * 65536 : Nat) := by omega
  have hquot : m * 65536 / (d.toNat * 65536) = m / d.toNat := Nat.mul_div_mul_right _ _ (by decide)
  have hle : m / d.toNat ≤ m := Nat.div_le_self _ _
  rw [fxDivInt, fxInt_eq (by omega), pure_andThen, hscale, fxDiv_wrap32 hm (by omega) (by omega) (by omega), hquot]

/-- A product of bounded factors, in Q16.16. -/
theorem mul_div_le {m n M N : Nat} (hm : m ≤ M) (hn : n ≤ N) : m * n / 65536 ≤ M * N / 65536 :=
  Nat.div_le_div_right (Nat.mul_le_mul hm hn)

end Sys2Proof.Machine
end

section
/-! SUPPORT. The square root of a nonnegative operand (R141 to R143). -/

namespace Sys2Proof.Machine

theorem ONE_eq : ONE = wrap32 (65536 : Nat) := rfl
theorem TWO_eq : TWO = wrap32 (131072 : Nat) := rfl
theorem SQRT2_eq : SQRT2 = wrap32 (92682 : Nat) := rfl

/-- The quotient in a Newton-Raphson step is below 4, for a mantissa in [1, 2) and a root of at least one half. -/
theorem newton_quotient_le {f r : Nat} (hf : f ≤ 131071) (hr : 32768 ≤ r) : f * 65536 / r ≤ 262142 :=
  calc f * 65536 / r
    _ ≤ 131071 * 65536 / 32768 := Nat.div_le_div (by omega) hr (by decide)
    _ = 262142 := rfl

theorem newton_range {f r : Nat} (hf : f ≤ 131071) (hr : 32768 ≤ r) :
    r / 2 ≤ Plain.newton f r ∧ Plain.newton f r ≤ (r + 262142) / 2 :=
  ⟨Nat.div_le_div_right (Nat.le_add_right _ _),
    Nat.div_le_div_right (Nat.add_le_add_left (newton_quotient_le hf hr) r)⟩

theorem sqrtNewton_wrap32 {f r : Nat} (hf : f ≤ 131071) (hr : 32768 ≤ r) (hr' : r ≤ 221182) :
    sqrtNewton (wrap32 f) (wrap32 r) = .pure (wrap32 (Plain.newton f r)) := by
  have hquot := newton_quotient_le hf hr
  rw [sqrtNewton, fxDiv_wrap32 (by omega) (by omega) (by omega) (by omega), pure_andThen, Plain.newton]
  generalize f * 65536 / r = q at hquot ⊢
  have hhalf : (r + q) * 65536 / 131072 = (r + q) / 2 := by omega
  rw [fxAdd_wrap32 (by omega) (by omega) (by omega), pure_andThen, TWO_eq, ← Nat.cast_add r q,
    fxDiv_wrap32 (by omega) (by omega) (by omega) (by omega), hhalf]

/-- The root after the two Newton-Raphson steps from the seed `(1 + f) / 2` (R142). -/
def sqrtMantissa (f : Nat) : Nat := Plain.newton f (Plain.newton f ((65536 + f) / 2))

/-- The root times the √2 factor of an odd exponent (R143). -/
def sqrtOdd (r k : Nat) : Nat := if k % 2 = 1 then r * 92682 / 65536 else r

theorem plainSqrt_eq (x : Nat) :
    Plain.sqrt x = sqrtOdd (sqrtMantissa (Plain.mantissa x (Nat.log2 x))) (Nat.log2 x) * 2 ^ (Nat.log2 x / 2) / 2 ^ 8 :=
  rfl

theorem sqrtMantissa_le {f : Nat} (hlow : 65536 ≤ f) (hhigh : f ≤ 131071) : sqrtMantissa f ≤ 221182 := by
  have h1 := newton_range (f := f) (r := (65536 + f) / 2) hhigh (by omega)
  have h2 := newton_range (f := f) (r := Plain.newton f ((65536 + f) / 2)) hhigh (by omega)
  rw [sqrtMantissa]
  omega

theorem sqrtOdd_le {r : Nat} (hr : r ≤ 221182) (k : Nat) : sqrtOdd r k ≤ 312798 := by
  rw [sqrtOdd]
  split <;> omega

/-- The power of two of the rebuild (R143), for the exponent `k - 16` of the leading bit `k`. -/
theorem pow2_half {k : Nat} (hk : k ≤ 30) : pow2 (((k : Int) - 16) >>> 1) = wrap32 (2 ^ (k / 2 + 8) : Nat) := by
  have hexp : ((k : Int) - 16) >>> 1 = ((k / 2 + 8 : Nat) : Int) - 16 := by
    have hshift : ((k : Int) - 16) >>> 1 = ((k : Int) - 16) / 2 :=
      (Int.shiftRight_natCast_right _ 1).trans (Int.shiftRight_eq_div_pow _ 1)
    omega
  rw [hexp, ← ofNat_eq_wrap32, ← toNat_pow2 (k := k / 2 + 8) (by omega), BitVec.ofNat_toNat, BitVec.setWidth_eq]

/-- A root scaled by a power of two fits. -/
theorem scaled_le {y k : Nat} (hy : y ≤ 312798) (hk : k ≤ 30) : y * 2 ^ (k / 2) / 2 ^ 8 ≤ 40038144 :=
  calc y * 2 ^ (k / 2) / 2 ^ 8
    _ ≤ 312798 * 2 ^ 15 / 2 ^ 8 :=
      Nat.div_le_div_right (Nat.mul_le_mul hy (Nat.pow_le_pow_right (by decide) (by omega)))
    _ = 40038144 := rfl

theorem fxSqrtRebuild_wrap32 {r k : Nat} (hr : r ≤ 221182) (hk : k ≤ 30) :
    fxSqrtRebuild (wrap32 r) ((k : Int) - 16) = .pure (wrap32 (sqrtOdd r k * 2 ^ (k / 2) / 2 ^ 8 : Nat)) := by
  have hodd : (if ((k : Int) - 16) % 2 = 1 then fxMul (wrap32 r) SQRT2 else .pure (wrap32 r)) =
      .pure (wrap32 (sqrtOdd r k)) := by
    rw [sqrtOdd]
    by_cases h : k % 2 = 1
    · rw [if_pos h, if_pos (by omega), SQRT2_eq, fxMul_wrap32 (by omega) (by omega) (by omega)]
    · rw [if_neg h, if_neg (by omega)]
  have hy := sqrtOdd_le hr k
  have hscale : sqrtOdd r k * 2 ^ (k / 2 + 8) / 65536 = sqrtOdd r k * 2 ^ (k / 2) / 2 ^ 8 := by
    rw [Nat.pow_add, ← Nat.mul_assoc]
    exact Nat.mul_div_mul_right (sqrtOdd r k * 2 ^ (k / 2)) (2 ^ 8) (by decide : 0 < 2 ^ 8)
  have hfit := scaled_le hy hk
  have hpow : 2 ^ (k / 2 + 8) ≤ 2 ^ 23 := Nat.pow_le_pow_right (by decide) (by omega)
  rw [fxSqrtRebuild, hodd, pure_andThen, pow2_half hk, fxMul_wrap32 (by omega) (by omega) (by omega), hscale]

theorem plainSqrt_le {x : Word} (hx : 0 < x.toInt) : Plain.sqrt x.toNat ≤ 40038144 := by
  obtain ⟨hlow, hhigh⟩ := mantissa_range (toNat_ne_zero_of_pos hx)
  exact scaled_le (sqrtOdd_le (sqrtMantissa_le hlow hhigh) _) (log2_toNat_le_of_pos hx)

theorem fxSqrtPos_eq {x : Word} (hx : 0 < x.toInt) : fxSqrtPos x = .pure (wrap32 (Plain.sqrt x.toNat)) := by
  obtain ⟨hlow, hhigh⟩ := mantissa_range (toNat_ne_zero_of_pos hx)
  rw [fxSqrtPos, fxNorm_eq hx, pure_andThen, plainSqrt_eq]
  simp only [ofNat_eq_wrap32]
  have hroot := sqrtMantissa_le hlow hhigh
  rw [← fxSqrtRebuild_wrap32 hroot (log2_toNat_le_of_pos hx), sqrtMantissa]
  generalize Plain.mantissa x.toNat (Nat.log2 x.toNat) = f at hlow hhigh
  have hseed : (65536 + f) * 65536 / 131072 = (65536 + f) / 2 := by omega
  have h1 := newton_range (f := f) (r := (65536 + f) / 2) hhigh (by omega)
  rw [ONE_eq, fxAdd_wrap32 (by omega) (by omega) (by omega), pure_andThen, TWO_eq, ← Nat.cast_add 65536 f,
    fxDiv_wrap32 (by omega) (by omega) (by omega) (by omega), pure_andThen, hseed,
    sqrtNewton_wrap32 hhigh (by omega) (by omega), pure_andThen, sqrtNewton_wrap32 hhigh (by omega) (by omega),
    pure_andThen]

end Sys2Proof.Machine
end

section
/-! SUPPORT. The square root over all its operands (R141), and the natural logarithm (R145). -/

namespace Sys2Proof.Machine

theorem fxSqrt_of_neg {x : Word} (hx : x.toInt < 0) : fxSqrt x = ⟨INVALID, flagDOM⟩ := by
  have hzero : x ≠ 0#32 := by rintro rfl; exact absurd hx (by decide)
  have hone : x ≠ ONE := by rintro rfl; exact absurd hx (by decide)
  rw [fxSqrt, if_neg hzero, if_neg hone, if_pos hx]

/-- Zero and ONE are their own square roots (R141). -/
theorem fxSqrt_of_fixed {x : Word} (hx : x.toInt = 0 ∨ x.toInt = 65536) : fxSqrt x = .pure x := by
  obtain h | h := hx
  · obtain rfl : x = 0#32 := BitVec.eq_of_toInt_eq h
    rfl
  · obtain rfl : x = ONE := BitVec.eq_of_toInt_eq h
    rfl

theorem fxSqrt_of_pos {x : Word} (hx : 0 < x.toInt) (hone : x.toInt ≠ 65536) :
    fxSqrt x = .pure (BitVec.ofNat 32 (Plain.sqrt x.toInt.toNat)) := by
  have hzero : x ≠ 0#32 := by rintro rfl; exact absurd hx (by decide)
  have hone' : x ≠ ONE := by rintro rfl; exact hone rfl
  rw [fxSqrt, if_neg hzero, if_neg hone', if_neg (by omega), fxSqrtPos_eq hx, ofNat_eq_wrap32,
    toNat_toInt_of_nonneg hx.le]

/-- A root of an operand that is not negative is not negative, and no flag is raised. -/
theorem fxSqrt_of_nonneg {x : Word} (hx : 0 ≤ x.toInt) : ∃ r : Word, fxSqrt x = .pure r ∧ 0 ≤ r.toInt := by
  by_cases hfixed : x.toInt = 0 ∨ x.toInt = 65536
  · exact ⟨x, fxSqrt_of_fixed hfixed, hx⟩
  · have hpos : 0 < x.toInt := by omega
    have hle := plainSqrt_le hpos
    refine ⟨_, fxSqrt_of_pos hpos (by omega), ?_⟩
    rw [ofNat_eq_wrap32, toNat_toInt_of_nonneg hx, toInt_wrap32 (by omega)]
    omega

/-! The natural logarithm. -/

/-- The four-term series of the logarithm on plain numbers (R145). -/
def lnTerms (u : Nat) : Int :=
  (u : Int) - (u * u / 65536 / 2 : Nat) + (u * u / 65536 * u / 65536 / 3 : Nat) -
    (u * u / 65536 * u / 65536 * u / 65536 / 4 : Nat)

theorem plainLn_eq (x : Nat) :
    Plain.ln x = lnTerms (Plain.mantissa x (Nat.log2 x) - 65536) + ((Nat.log2 x : Int) - 16) * 45426 := rfl

/-- The powers of a number below 1 are below 1. -/
theorem lnPowers_le {u : Nat} (hu : u ≤ 65535) :
    u * u / 65536 ≤ 65535 ∧ u * u / 65536 * u / 65536 ≤ 65535 ∧ u * u / 65536 * u / 65536 * u / 65536 ≤ 65535 := by
  have hstep : ∀ {m : Nat}, m ≤ 65535 → m * u / 65536 ≤ 65535 := fun hm => (mul_div_le hm hu).trans (by decide)
  exact ⟨hstep hu, hstep (hstep hu), hstep (hstep (hstep hu))⟩

theorem lnTerms_range {u : Nat} (hu : u ≤ 65535) : -131072 ≤ lnTerms u ∧ lnTerms u ≤ 131072 := by
  obtain ⟨h2, h3, h4⟩ := lnPowers_le hu
  rw [lnTerms]
  omega

theorem lnSeries_wrap32 {u : Nat} (hu : u ≤ 65535) : lnSeries (wrap32 u) = .pure (wrap32 (lnTerms u)) := by
  obtain ⟨h2, h3, h4⟩ := lnPowers_le hu
  simp (disch := omega) only [lnSeries, fxMul_wrap32, fxDivInt_wrap32, fxAdd_wrap32, fxSub_wrap32, pure_andThen,
    Int.reduceToNat, lnTerms]

/-- `scale * ln 2`, an exact product (R145). -/
theorem fxMul_LN2 {e : Int} (he : -16 ≤ e ∧ e ≤ 14) : fxMul (wrap32 (e * 65536)) LN2 = .pure (wrap32 (e * 45426)) := by
  have hln2 : LN2.toInt = 45426 := rfl
  have hprod : Plain.product (e * 65536) 45426 = e * 45426 := by
    rw [Plain.product, mul_right_comm]
    exact Int.mul_tdiv_cancel _ (by decide)
  rw [fxMul_eq, toInt_wrap32 (by omega), hln2, hprod, narrow_eq_pure (by omega)]

theorem fxLn_of_nonpos {x : Word} (hx : x.toInt ≤ 0) : fxLn x = ⟨INVALID, flagDOM⟩ := by
  rw [fxLn, if_pos hx]

theorem fxLn_of_one {x : Word} (hx : x.toInt = 65536) : fxLn x = .pure 0#32 := by
  obtain rfl : x = ONE := BitVec.eq_of_toInt_eq hx
  rfl

theorem fxLn_of_pos {x : Word} (hx : 0 < x.toInt) (hone : x.toInt ≠ 65536) :
    fxLn x = .pure (wrap32 (Plain.ln x.toInt.toNat)) := by
  have hone' : x ≠ ONE := by rintro rfl; exact hone rfl
  have hlog := log2_toNat_le_of_pos hx
  obtain ⟨hlow, hhigh⟩ := mantissa_range (toNat_ne_zero_of_pos hx)
  rw [fxLn, if_neg (by omega), if_neg hone', fxNorm_eq hx, pure_andThen, toNat_toInt_of_nonneg hx.le, plainLn_eq]
  simp only [ofNat_eq_wrap32]
  generalize Plain.mantissa x.toNat (Nat.log2 x.toNat) = f at hlow hhigh ⊢
  have hrange := lnTerms_range (u := f - 65536) (by omega)
  have hu : (f : Int) - (65536 : Nat) = (f - 65536 : Nat) := by omega
  rw [ONE_eq, fxSub_wrap32 (by omega) (by omega) (by omega), hu, pure_andThen, lnSeries_wrap32 (by omega), pure_andThen,
    fxInt_eq (by omega), pure_andThen, fxMul_LN2 (by omega), pure_andThen,
    fxAdd_wrap32 (by omega) (by omega) (by omega)]

end Sys2Proof.Machine
end

section
/-! PROOF. The statements about the square root and the logarithm (41_transcendental.md). -/

namespace Sys2Proof.Machine

/-- What a command leaves, from what its function answers. -/
theorem finish_of_eq {r : Fx Word} {v : Word} {fl : FlagSet} (hr : r = ⟨v, fl⟩) (rd : Reg) (s : State) :
    finish rd r s = .next (afterCommand rd v fl s) := by
  rw [hr, finish_eq]

/-- Settles O32: `fxSqrt` in its three cases. -/
theorem sqrtCommand : Obligations.SqrtCommand := by
  intro rd rs1 s
  refine ⟨decode_formWord_rr (by decide) rfl rd rs1, ?_⟩
  intro a
  split
  · exact finish_of_eq (fxSqrt_of_neg ‹a < 0›) rd s
  · split
    · exact finish_of_eq (fxSqrt_of_fixed ‹a = 0 ∨ a = 65536›) rd s
    · exact finish_of_eq (fxSqrt_of_pos (by omega) (by omega)) rd s

/-- Settles O33: `fxLn` in its three cases. -/
theorem lnCommand : Obligations.LnCommand := by
  intro rd rs1 s
  refine ⟨decode_formWord_rr (by decide) rfl rd rs1, ?_⟩
  intro a
  split
  · exact finish_of_eq (fxLn_of_nonpos ‹a ≤ 0›) rd s
  · split
    · exact finish_of_eq (fxLn_of_one ‹a = 65536›) rd s
    · exact finish_of_eq (fxLn_of_pos (by omega) ‹a ≠ 65536›) rd s

end Sys2Proof.Machine
end

section
/-! SUPPORT. The sine of any angle and the cosine (R155 to R160). -/

namespace Sys2Proof.Machine

/-! The series on (0, π/2) (R157). -/

/-- The odd powers of an angle up to π/2. -/
theorem sinPowers_le {t : Nat} (ht : t ≤ 102944) :
    t * t / 65536 ≤ 161704 ∧ t * t / 65536 * t / 65536 ≤ 254004 ∧
    t * t / 65536 * t / 65536 * (t * t / 65536) / 65536 ≤ 626731 ∧
    t * t / 65536 * t / 65536 * (t * t / 65536) / 65536 * (t * t / 65536) / 65536 ≤ 1546400 := by
  have h2 : t * t / 65536 ≤ 161704 := mul_div_le ht ht
  have h3 : t * t / 65536 * t / 65536 ≤ 254004 := (mul_div_le h2 ht).trans (by decide)
  have h5 : t * t / 65536 * t / 65536 * (t * t / 65536) / 65536 ≤ 626731 := (mul_div_le h3 h2).trans (by decide)
  exact ⟨h2, h3, h5, (mul_div_le h5 h2).trans (by decide)⟩

theorem sinSeries_range {t : Nat} (ht : t ≤ 102944) : -131072 ≤ Plain.sinSeries t ∧ Plain.sinSeries t ≤ 131072 := by
  obtain ⟨h2, h3, h5, h7⟩ := sinPowers_le ht
  rw [Plain.sinSeries]
  omega

theorem fxSinser_wrap32 {t : Nat} (ht : t ≤ 102944) : fxSinser (wrap32 t) = .pure (wrap32 (Plain.sinSeries t)) := by
  obtain ⟨h2, h3, h5, h7⟩ := sinPowers_le ht
  simp (disch := omega) only [fxSinser, fxMul_wrap32, fxDivInt_wrap32, fxAdd_wrap32, fxSub_wrap32, pure_andThen,
    Int.reduceToNat, Plain.sinSeries]

/-- The series of the distance of an angle from a mark of the turn (R158). -/
theorem fxSinser_sub {m n : Nat} (hm : m ≤ 411775) (hle : n ≤ m) (hdiff : m - n ≤ 102944) :
    (fxSub (wrap32 m) (wrap32 n)).andThen fxSinser = .pure (wrap32 (Plain.sinSeries (m - n))) := by
  have hsub : (m : Int) - n = (m - n : Nat) := by omega
  rw [fxSub_wrap32 (by omega) (by omega) (by omega), hsub, pure_andThen, fxSinser_wrap32 hdiff]

theorem fxNegate_wrap32 {v : Int} (hv : -131072 ≤ v ∧ v ≤ 131072) : fxNegate (wrap32 v) = .pure (wrap32 (-v)) := by
  have hzero : 0#32 = wrap32 0 := rfl
  rw [fxNegate, hzero, fxSub_wrap32 (by omega) (by omega) (by omega), zero_sub]

/-! One turn (R156, R158). -/

theorem PI_eq : PI = wrap32 (205887 : Nat) := rfl
theorem PI_BY_2_eq : PI_BY_2 = wrap32 (102944 : Nat) := rfl
theorem THREE_PI_BY_2_eq : THREE_PI_BY_2 = wrap32 (308831 : Nat) := rfl
theorem TWO_PI_eq : TWO_PI = wrap32 (411775 : Nat) := rfl

theorem sinReduced_wrap32 {r : Nat} (hr : r < 411775) : sinReduced (wrap32 r) = .pure (wrap32 (Plain.sinTurn r)) := by
  have hval : (wrap32 r).toInt = r := toInt_wrap32 (by omega)
  have hmarks : PI_BY_2.toInt = (102944 : Nat) ∧ PI.toInt = (205887 : Nat) ∧ THREE_PI_BY_2.toInt = (308831 : Nat) :=
    ⟨rfl, rfl, rfl⟩
  obtain ⟨hq1, hq2, hq3⟩ := hmarks
  have heq : ∀ {n : Nat}, n ≤ 411775 → (wrap32 r = wrap32 n ↔ r = n) := fun hn => by
    rw [wrap32_inj (by omega) (by omega), Nat.cast_inj]
  have hzero : wrap32 r = 0#32 ↔ r = 0 := heq (by decide)
  rw [sinReduced, Plain.sinTurn, hval, hq1, hq2, hq3]
  simp (disch := decide) only [hzero, PI_eq, PI_BY_2_eq, THREE_PI_BY_2_eq, TWO_PI_eq, heq, Nat.cast_lt]
  split_ifs
  · rfl
  · rfl
  · rfl
  · exact fxSinser_wrap32 (by omega)
  · exact fxSinser_sub (by omega) (by omega) (by omega)
  · rw [fxSinser_sub (by omega) (by omega) (by omega), pure_andThen, fxNegate_wrap32 (sinSeries_range (by omega))]
  · rw [fxSinser_sub (by omega) (by omega) (by omega), pure_andThen, fxNegate_wrap32 (sinSeries_range (by omega))]

theorem sinTurn_range {r : Nat} (hr : r < 411775) : -131072 ≤ Plain.sinTurn r ∧ Plain.sinTurn r ≤ 131072 := by
  have hneg : ∀ {t : Nat}, t ≤ 102944 → -131072 ≤ -Plain.sinSeries t ∧ -Plain.sinSeries t ≤ 131072 := fun ht => by
    have := sinSeries_range ht
    omega
  rw [Plain.sinTurn]
  split_ifs
  · decide
  · decide
  · decide
  · exact sinSeries_range (by omega)
  · exact sinSeries_range (by omega)
  · exact hneg (by omega)
  · exact hneg (by omega)

/-! Any angle (R155, R158, R160). -/

theorem fxReduce_eq (x : Word) : fxReduce x = wrap32 ((x.toInt % 411775).toNat : Nat) := by
  have hturn : TWO_PI.toInt = 411775 := rfl
  have hmod : Int.fmod x.toInt 411775 = x.toInt % 411775 := Int.fmod_eq_emod_of_nonneg _ (by decide)
  rw [fxReduce, hturn, hmod, Int.toNat_of_nonneg (Int.emod_nonneg _ (by decide))]

theorem fxSin_eq (x : Word) : fxSin x = .pure (wrap32 (Plain.sin x.toInt)) := by
  rw [fxSin, fxReduce_eq, sinReduced_wrap32 (by omega), Plain.sin]

theorem toInt_wrap32_sin (x : Int) : (wrap32 (Plain.sin x)).toInt = Plain.sin x := by
  have := sinTurn_range (r := (x % 411775).toNat) (by omega)
  exact toInt_wrap32 (by rw [Plain.sin]; omega)

/-- The difference π/2 - x is too large exactly for x below -2147380703 (R160). -/
theorem overflow_cos (x : Word) : Plain.overflow (102944 - x.toInt) = Plain.cosFlags x.toInt := by
  have := toInt_range x
  rw [Plain.overflow, Plain.cosFlags]
  split_ifs
  · omega
  · rfl
  · rfl
  · omega

theorem fxCos_eq (x : Word) : fxCos x = ⟨wrap32 (Plain.cos x.toInt), Plain.cosFlags x.toInt⟩ := by
  have hquarter : PI_BY_2.toInt = 102944 := rfl
  rw [fxCos, fxSub, hquarter, Fx.ext_iff', andThen_val, andThen_fl, narrow_fl, narrow_val, fxSin_eq, overflow_cos]
  exact ⟨rfl, BitVec.or_zero⟩

theorem toInt_wrap32_cos (x : Int) : (wrap32 (Plain.cos x)).toInt = Plain.cos x := toInt_wrap32_sin _

/-! The exact quotients (R162 to R165). -/

theorem fxDiv_of_toInt {a b : Word} {v w : Int} (ha : a.toInt = v) (hb : b.toInt = w) :
    fxDiv a b = ⟨(Plain.quotient v w).1, (Plain.quotient v w).2⟩ := by
  rw [fxDiv_eq, ha, hb]

/-- A quotient that needs the cosine gains the cosine's OV. -/
theorem fxCos_andThen {x : Word} {f : Word → Fx Word} {q : Word × FlagSet}
    (hf : f (wrap32 (Plain.cos x.toInt)) = ⟨q.1, q.2⟩) :
    (fxCos x).andThen f = ⟨q.1, q.2 ||| Plain.cosFlags x.toInt⟩ := by
  rw [fxCos_eq, Fx.ext_iff', andThen_val, andThen_fl, hf]
  exact ⟨rfl, BitVec.or_comm _ _⟩

theorem fxTan_eq (x : Word) : let q := Plain.quotient (Plain.sin x.toInt) (Plain.cos x.toInt)
    fxTan x = ⟨q.1, q.2 ||| Plain.cosFlags x.toInt⟩ := by
  rw [fxTan, fxSin_eq, pure_andThen]
  exact fxCos_andThen (fxDiv_of_toInt (toInt_wrap32_sin _) (toInt_wrap32_cos _))

theorem fxCsc_eq (x : Word) : let q := Plain.quotient 65536 (Plain.sin x.toInt)
    fxCsc x = ⟨q.1, q.2⟩ := by
  rw [fxCsc, fxSin_eq, pure_andThen]
  exact fxDiv_of_toInt rfl (toInt_wrap32_sin _)

theorem fxSec_eq (x : Word) : let q := Plain.quotient 65536 (Plain.cos x.toInt)
    fxSec x = ⟨q.1, q.2 ||| Plain.cosFlags x.toInt⟩ :=
  fxCos_andThen (fxDiv_of_toInt rfl (toInt_wrap32_cos _))

theorem fxCot_eq (x : Word) : let q := Plain.quotient (Plain.cos x.toInt) (Plain.sin x.toInt)
    fxCot x = ⟨q.1, q.2 ||| Plain.cosFlags x.toInt⟩ := by
  refine fxCos_andThen ?_
  rw [fxSin_eq, pure_andThen]
  exact fxDiv_of_toInt (toInt_wrap32_cos _) (toInt_wrap32_sin _)

end Sys2Proof.Machine
end

section
/-! PROOF. The statements about the sine and the functions derived from it (41_transcendental.md). -/

namespace Sys2Proof.Machine

/-- Settles O38: the sine raises nothing. -/
theorem sinCommand : Obligations.SinCommand := fun rd rs1 s =>
  ⟨decode_formWord_rr (by decide) rfl rd rs1, finish_of_eq (fxSin_eq (readReg s rs1)) rd s⟩

/-- Settles O39: the flags are those of the one wrapped difference. -/
theorem cosCommand : Obligations.CosCommand := fun rd rs1 s =>
  ⟨decode_formWord_rr (by decide) rfl rd rs1, finish_of_eq (fxCos_eq (readReg s rs1)) rd s⟩

/-- Settles O40: the exact quotient of the plain sine by the plain cosine. -/
theorem tanCommand : Obligations.TanCommand := fun rd rs1 s =>
  ⟨decode_formWord_rr (by decide) rfl rd rs1, finish_of_eq (fxTan_eq (readReg s rs1)) rd s⟩

/-- Settles O41: the exact quotient of ONE by the plain sine. -/
theorem cscCommand : Obligations.CscCommand := fun rd rs1 s =>
  ⟨decode_formWord_rr (by decide) rfl rd rs1, finish_of_eq (fxCsc_eq (readReg s rs1)) rd s⟩

/-- Settles O42: the exact quotient of ONE by the plain cosine. -/
theorem secCommand : Obligations.SecCommand := fun rd rs1 s =>
  ⟨decode_formWord_rr (by decide) rfl rd rs1, finish_of_eq (fxSec_eq (readReg s rs1)) rd s⟩

/-- Settles O43: the exact quotient of the plain cosine by the plain sine. -/
theorem cotCommand : Obligations.CotCommand := fun rd rs1 s =>
  ⟨decode_formWord_rr (by decide) rfl rd rs1, finish_of_eq (fxCot_eq (readReg s rs1)) rd s⟩

end Sys2Proof.Machine
end

section
/-! SUPPORT. The powers: the levels of the integer power, the loop of the fractional power, and which flags they can raise
(R147 to R153). -/

namespace Sys2Proof.Machine

/-! The integer power (R147). -/

theorem fxIpowLevels_zero (levels : Nat) (b : Word) : fxIpowLevels levels b 0 = .pure ONE := by
  cases levels <;> rfl

/-- A count below `2 ^ k` takes at most `k + 1` levels. -/
theorem fxIpowLevels_succ {k n : Nat} (b : Word) (hn : n < 2 ^ k) :
    fxIpowLevels (k + 2) b n = fxIpowLevels (k + 1) b n := by
  induction k generalizing n with
  | zero =>
    obtain rfl : n = 0 := by omega
    rw [fxIpowLevels_zero, fxIpowLevels_zero]
  | succ k ih =>
    have hhalf : n >>> 1 < 2 ^ k := by rw [Nat.shiftRight_eq_div_pow]; omega
    conv_lhs => rw [fxIpowLevels, ih hhalf]
    rfl

theorem fxIpow_eq (b : Word) {n : Nat} (hn : n < 2 ^ 32) :
    fxIpow b n = if n = 0 then .pure ONE
      else (fxIpow b (n / 2)).andThen fun h => (fxMul h h).andThen fun h2 =>
        if n % 2 = 1 then fxMul h2 b else .pure h2 := by
  have hlevels : fxIpow b (n / 2) = fxIpowLevels 32 b (n >>> 1) := fxIpowLevels_succ (k := 31) b (by omega)
  rw [hlevels]
  rfl

theorem fxMul_ONE_left (x : Word) : fxMul ONE x = .pure x := (identitiesOfOne.1 x).1

theorem fxMul_comm (a b : Word) : fxMul a b = fxMul b a := by
  rw [fxMul_eq, fxMul_eq, Plain.product, Plain.product, mul_comm]

theorem fxMul_ONE_right (x : Word) : fxMul x ONE = .pure x := by rw [fxMul_comm, fxMul_ONE_left]

theorem fxIpow_zero (b : Word) : fxIpow b 0 = .pure ONE := rfl

theorem fxIpow_one (b : Word) : fxIpow b 1 = .pure b := by
  rw [fxIpow_eq b (by decide), if_neg (by decide), Nat.div_eq_of_lt (by decide), fxIpow_zero, pure_andThen,
    fxMul_ONE_left, pure_andThen, if_pos rfl, fxMul_ONE_left]

theorem fxIpow_two (b : Word) : fxIpow b 2 = fxMul b b := by
  have hhalf : fxIpow b (2 / 2) = .pure b := fxIpow_one b
  rw [fxIpow_eq b (by decide), if_neg (by decide), hhalf, pure_andThen]
  exact andThen_pure _

/-! The flags a product can raise: OV alone (R109, R220). -/

/-- The empty set holds no flag. -/
theorem not_getLsbD_zero {i : Nat} : ¬ (0#4).getLsbD i = true := by simp

/-- A flag is the set of one bit. -/
theorem eq_of_getLsbD_twoPow {k i : Nat} (h : (BitVec.twoPow 4 k).getLsbD i = true) : i = k := by
  rw [BitVec.getLsbD_twoPow, Bool.and_eq_true, decide_eq_true_eq, decide_eq_true_eq] at h
  exact h.2.symm

theorem overflow_flag {v : Int} {i : Nat} (h : (Plain.overflow v).getLsbD i = true) : i = 0 := by
  rw [Plain.overflow] at h
  split at h
  · exact absurd h not_getLsbD_zero
  · exact eq_of_getLsbD_twoPow h

theorem fxMul_flag {a b : Word} {i : Nat} (h : (fxMul a b).fl.getLsbD i = true) : i = 0 := by
  rw [fxMul_eq, narrow_fl] at h
  exact overflow_flag h

theorem andThen_flag_iff {α β : Type} {m : Fx α} {f : α → Fx β} {i : Nat} :
    (m.andThen f).fl.getLsbD i = true ↔ m.fl.getLsbD i = true ∨ (f m.val).fl.getLsbD i = true := by
  rw [andThen_fl, BitVec.getLsbD_or, Bool.or_eq_true]

theorem fxIpowLevels_flag {levels n : Nat} {b : Word} {i : Nat} (h : (fxIpowLevels levels b n).fl.getLsbD i = true) :
    i = 0 := by
  induction levels generalizing n with
  | zero => exact absurd h not_getLsbD_zero
  | succ levels ih =>
    rw [fxIpowLevels] at h
    split at h
    · exact absurd h not_getLsbD_zero
    · obtain h | h := andThen_flag_iff.mp h
      · exact ih h
      · obtain h | h := andThen_flag_iff.mp h
        · exact fxMul_flag h
        · split at h
          · exact fxMul_flag h
          · exact absurd h not_getLsbD_zero

/-! The fractional power (R149). -/

theorem fxSqrt_flag {x : Word} {i : Nat} (h : (fxSqrt x).fl.getLsbD i = true) : i = 2 ∧ x.toInt < 0 := by
  by_cases hx : x.toInt < 0
  · rw [fxSqrt_of_neg hx] at h
    exact ⟨eq_of_getLsbD_twoPow h, hx⟩
  · obtain ⟨r, hr, -⟩ := fxSqrt_of_nonneg (x := x) (by omega)
    rw [hr] at h
    exact absurd h not_getLsbD_zero

/-- A root is negative only where its operand is. -/
theorem neg_of_neg_fxSqrt {x : Word} (h : (fxSqrt x).val.toInt < 0) : x.toInt < 0 := by
  by_contra hx
  obtain ⟨r, hr, hnonneg⟩ := fxSqrt_of_nonneg (x := x) (by omega)
  rw [hr, pure_val] at h
  omega

/-- The loop multiplies, which raises OV, and takes roots, which raise DOM where the first operand is negative. -/
theorem fxFpowLoop_flag {p j : Nat} {acc r : Word} {i : Nat} (h : (fxFpowLoop p j acc r).fl.getLsbD i = true) :
    i = 0 ∨ i = 2 ∧ r.toInt < 0 := by
  induction j generalizing acc r with
  | zero => exact absurd h not_getLsbD_zero
  | succ j ih =>
    rw [fxFpowLoop] at h
    split at h
    · exact absurd h not_getLsbD_zero
    · obtain h | h := andThen_flag_iff.mp h
      · exact .inr (fxSqrt_flag h)
      · obtain h | h := andThen_flag_iff.mp h
        · split at h
          · exact .inl (fxMul_flag h)
          · exact absurd h not_getLsbD_zero
        · exact (ih h).imp_right fun ⟨hi, hneg⟩ => ⟨hi, neg_of_neg_fxSqrt hneg⟩

theorem fxFpow_zero (b : Word) : fxFpow b 0 = .pure ONE := rfl

/-- DOM exactly for a negative base and a fraction that is not 0 (R150): the first root raises it. -/
theorem fxFpow_dom_iff {b : Word} {p : Nat} (hp : p < 65536) :
    (fxFpow b p).fl.getLsbD 2 = true ↔ b.toInt < 0 ∧ p ≠ 0 := by
  constructor
  · intro h
    refine ⟨((fxFpowLoop_flag h).resolve_left (by decide)).2, ?_⟩
    rintro rfl
    exact absurd h not_getLsbD_zero
  · rintro ⟨hneg, hne⟩
    have hbits : p % 2 ^ (15 + 1) ≠ 0 := by omega
    rw [fxFpow, fxFpowLoop, if_neg hbits, andThen_flag_iff, fxSqrt_of_neg hneg]
    exact .inl rfl

/-- The bits above the lowest set one take roots alone, and the lowest set one multiplies ONE by the last root (C2). -/
theorem fxFpowLoop_single_bit {j n : Nat} (r : Word) :
    (fxFpowLoop (2 ^ j) (j + n + 1) ONE r).val = (fun r => (fxSqrt r).val)^[n + 1] r := by
  induction n generalizing r with
  | zero =>
    have hbits : 2 ^ j % 2 ^ (j + 1) ≠ 0 := by
      rw [Nat.mod_eq_of_lt (Nat.pow_lt_pow_succ (by decide))]
      exact (Nat.two_pow_pos j).ne'
    have hdone : ∀ acc r' : Word, fxFpowLoop (2 ^ j) j acc r' = .pure acc := by
      intro acc r'
      cases j with
      | zero => rfl
      | succ j => rw [fxFpowLoop, if_pos (Nat.mod_self _)]
    rw [Nat.add_zero, fxFpowLoop, if_neg hbits, andThen_val, if_pos (Nat.testBit_two_pow_self), fxMul_ONE_left,
      pure_andThen, hdone]
    rfl
  | succ n ih =>
    have hlt : 2 ^ j < 2 ^ (j + (n + 1) + 1) := Nat.pow_lt_pow_right (by decide) (by omega)
    have hbits : 2 ^ j % 2 ^ (j + (n + 1) + 1) ≠ 0 := by
      rw [Nat.mod_eq_of_lt hlt]
      exact (Nat.two_pow_pos j).ne'
    have hclear : ¬ (2 ^ j).testBit (j + (n + 1)) = true := by
      rw [Nat.testBit_two_pow]
      simp
    rw [fxFpowLoop, if_neg hbits, andThen_val, if_neg hclear, pure_andThen, ← Nat.add_assoc, ih,
      ← Function.iterate_succ_apply]

/-! The loop of the fractional power as the fold of its bits (R149). -/

/-- One round of the fold: the next root, multiplied in where the bit is set. -/
def fpowRound (p : Nat) (q : Word × Word) (j : Nat) : Fx (Word × Word) :=
  (fxSqrt q.2).andThen fun r => (if p.testBit j then fxMul q.1 r else .pure q.1).andThen fun acc => .pure (acc, r)

/-- The fold of rounds over the bits of a list. -/
def fpowRounds (p : Nat) (js : List Nat) (m : Fx (Word × Word)) : Fx (Word × Word) :=
  js.foldl (fun m j => m.andThen fun q => fpowRound p q j) m

/-- The bit numbers below `j`, from the top down to the lowest set bit of `p`. -/
def fpowBits (p j : Nat) : List Nat := (List.range j).reverse.takeWhile fun i => p % 2 ^ (i + 1) ≠ 0

theorem plainFpow_eq (b : Word) (p : Nat) : Plain.fpow b p = fpowRounds p (fpowBits p 16) (.pure (ONE, b)) := rfl

theorem fpowBits_succ (p j : Nat) : fpowBits p (j + 1) = if p % 2 ^ (j + 1) = 0 then [] else j :: fpowBits p j := by
  rw [fpowBits, List.range_succ, List.reverse_append, List.reverse_singleton, List.singleton_append, List.takeWhile_cons]
  by_cases h : p % 2 ^ (j + 1) = 0 <;> simp [h, fpowBits]

theorem fpowRounds_cons (p j : Nat) (js : List Nat) (q : Word × Word) :
    fpowRounds p (j :: js) (.pure q) = fpowRounds p js (fpowRound p q j) := by
  simp only [fpowRounds, List.foldl_cons, pure_andThen]

/-- The rounds go on from what the first part answers. -/
theorem fpowRounds_andThen (p : Nat) (js : List Nat) (m : Fx (Word × Word)) :
    fpowRounds p js m = m.andThen fun q => fpowRounds p js (.pure q) := by
  induction js generalizing m with
  | nil => exact (andThen_pure m).symm
  | cons j js ih =>
    calc fpowRounds p (j :: js) m
      _ = fpowRounds p js (m.andThen fun q => fpowRound p q j) := rfl
      _ = m.andThen fun q => (fpowRound p q j).andThen fun q' => fpowRounds p js (.pure q') := by rw [ih, andThen_assoc]
      _ = m.andThen fun q => fpowRounds p (j :: js) (.pure q) := by
        congr 1
        funext q
        rw [fpowRounds_cons, ih (fpowRound p q j)]

theorem fxFpowLoop_eq_rounds (p j : Nat) (acc r : Word) :
    fxFpowLoop p j acc r = (fpowRounds p (fpowBits p j) (.pure (acc, r))).andThen fun q => .pure q.1 := by
  induction j generalizing acc r with
  | zero => rfl
  | succ j ih =>
    rw [fxFpowLoop, fpowBits_succ]
    split
    · rfl
    · rw [fpowRounds_cons, fpowRounds_andThen]
      simp only [fpowRound, andThen_assoc, pure_andThen, ih]

theorem fxFpow_eq (b : Word) (p : Nat) : fxFpow b p = ⟨(Plain.fpow b p).val.1, (Plain.fpow b p).fl⟩ := by
  rw [fxFpow, fxFpowLoop_eq_rounds, plainFpow_eq, Fx.ext_iff', andThen_val, andThen_fl]
  exact ⟨rfl, BitVec.or_zero⟩

/-! The general power (R151). -/

/-- The power to the magnitude `m` of the exponent. -/
def powPositive (b : Word) (m : Nat) : Fx Word :=
  (fxIpow b (m / 65536)).andThen fun i => (fxFpow b (m % 65536)).andThen fun f => fxMul i f

theorem fxPow_eq (b p : Word) :
    fxPow b p = (powPositive b p.toInt.natAbs).andThen fun r => if p.toInt < 0 then fxDiv ONE r else .pure r := by
  have hint : mag p >>> 16 = p.toInt.natAbs / 65536 := Nat.shiftRight_eq_div_pow _ 16
  rw [fxPow, hint, powPositive, andThen_assoc]
  simp only [andThen_assoc]
  rfl

theorem powPositive_flag {b : Word} {m i : Nat} (h : (powPositive b m).fl.getLsbD i = true) :
    i = 0 ∨ i = 2 ∧ b.toInt < 0 := by
  obtain h | h := andThen_flag_iff.mp h
  · exact .inl (fxIpowLevels_flag h)
  · obtain h | h := andThen_flag_iff.mp h
    · exact fxFpowLoop_flag h
    · exact .inl (fxMul_flag h)

theorem powPositive_dom_iff (b : Word) (m : Nat) :
    (powPositive b m).fl.getLsbD 2 = true ↔ b.toInt < 0 ∧ m % 65536 ≠ 0 := by
  have hipow : ¬ (fxIpow b (m / 65536)).fl.getLsbD 2 = true := fun h => absurd (fxIpowLevels_flag h) (by decide)
  have hmul : ∀ x y : Word, ¬ (fxMul x y).fl.getLsbD 2 = true := fun _ _ h => absurd (fxMul_flag h) (by decide)
  rw [powPositive, andThen_flag_iff, or_iff_right hipow, andThen_flag_iff, or_iff_left (hmul _ _)]
  exact fxFpow_dom_iff (Nat.mod_lt m (by decide))

/-- A division raises OV or, exactly by zero, DZ (R113). -/
theorem fxDiv_flag {a b : Word} {i : Nat} (h : (fxDiv a b).fl.getLsbD i = true) : i = 0 ∨ i = 1 := by
  by_cases hb : b.toInt = 0
  · rw [fxDiv_zero a hb] at h
    exact .inr (eq_of_getLsbD_twoPow h)
  · rw [fxDiv_eq_narrow a hb, narrow_fl] at h
    exact .inl (overflow_flag h)

theorem fxDiv_dz_iff (a b : Word) : (fxDiv a b).fl.getLsbD 1 = true ↔ b = 0#32 := by
  constructor
  · intro h
    by_contra hb
    have hne : b.toInt ≠ 0 := fun h0 => hb (BitVec.eq_of_toInt_eq h0)
    rw [fxDiv_eq_narrow a hne, narrow_fl] at h
    exact absurd (overflow_flag h) (by decide)
  · rintro rfl
    rw [fxDiv_zero a rfl]
    exact (by decide : flagDZ.getLsbD 1 = true)

/-- DZ exactly when the exponent is negative and the positive case is 0 (R152). -/
theorem fxPow_dz_iff (b p : Word) :
    (fxPow b p).fl.getLsbD 1 = true ↔ p.toInt < 0 ∧ (powPositive b p.toInt.natAbs).val = 0#32 := by
  have hpos : ¬ (powPositive b p.toInt.natAbs).fl.getLsbD 1 = true := fun h =>
    absurd (powPositive_flag h) fun h => by omega
  rw [fxPow_eq, andThen_flag_iff, or_iff_right hpos]
  by_cases hp : p.toInt < 0
  · rw [if_pos hp, fxDiv_dz_iff, and_iff_right hp]
  · rw [if_neg hp]
    exact ⟨fun h => absurd h not_getLsbD_zero, fun h => absurd h.1 hp⟩

/-- DOM exactly when the base is negative and the fraction of the exponent is not 0 (R152). -/
theorem fxPow_dom_iff (b p : Word) :
    (fxPow b p).fl.getLsbD 2 = true ↔ b.toInt < 0 ∧ p.toInt.natAbs % 65536 ≠ 0 := by
  rw [fxPow_eq, andThen_flag_iff, powPositive_dom_iff]
  refine or_iff_left ?_
  by_cases hp : p.toInt < 0
  · rw [if_pos hp]
    exact fun h => absurd (fxDiv_flag h) (by decide)
  · rw [if_neg hp]
    exact not_getLsbD_zero

theorem fxPow_two (b : Word) : fxPow b 0x00020000#32 = fxMul b b := by
  have hpos : powPositive b (0x00020000#32 : Word).toInt.natAbs = fxMul b b :=
    calc powPositive b (0x00020000#32 : Word).toInt.natAbs
      _ = (fxIpow b 2).andThen fun i => (fxFpow b 0).andThen fun f => fxMul i f := rfl
      _ = fxMul b b := by simp only [fxIpow_two, fxFpow_zero, pure_andThen, fxMul_ONE_right, andThen_pure]
  have hsign : ¬ (0x00020000#32 : Word).toInt < 0 := by decide
  simp only [fxPow_eq, hpos, hsign, if_false, andThen_pure]

/-! The exponential (R153). -/

/-- The integer powers of E overflow from the eleventh on: those to 21 are evaluated, and any further one multiplies a
power to half its count, which has overflowed. -/
theorem fxIpow_E_overflows {n : Nat} (hlow : 11 ≤ n) (hn : n < 2 ^ 32) : (fxIpow E n).fl.getLsbD 0 = true := by
  induction n using Nat.strong_induction_on with
  | _ n ih =>
    by_cases hsmall : n < 22
    · have hvalues : ∀ k : Fin 11, (fxIpow E (k.val + 11)).fl.getLsbD 0 = true := by decide
      have hk := hvalues ⟨n - 11, by omega⟩
      rwa [Nat.sub_add_cancel hlow] at hk
    · rw [fxIpow_eq E hn, if_neg (by omega), andThen_flag_iff]
      exact .inl (ih (n / 2) (by omega) (by omega) (by omega))

theorem fxPow_E_overflows {p : Word} (hp : 720896 ≤ p.toInt.natAbs) : (fxPow E p).fl.getLsbD 0 = true := by
  have := toInt_range p
  rw [fxPow_eq, andThen_flag_iff, powPositive, andThen_flag_iff]
  exact .inl (.inl (fxIpow_E_overflows (by omega) (by omega)))

end Sys2Proof.Machine
end

section
/-! PROOF. The statements about the powers and the exponential (41_transcendental.md). -/

namespace Sys2Proof.Machine

/-- Settles O34: the counts below 2^32 fit the model's 33 levels, `fxIpow_eq`. -/
theorem ipowCommand : Obligations.IpowCommand :=
  ⟨fun rd rs1 rs2 s => ⟨decode_formWord_rrr (by decide) rfl rd rs1 rs2, finish_eq rd _ s⟩, fun b _ hn => fxIpow_eq b hn⟩

/-- Settles O35: the loop is the fold over the bits of the fraction, and its first root raises DOM. -/
theorem fpowCommand : Obligations.FpowCommand := by
  refine ⟨fun rd rs1 rs2 s => ⟨decode_formWord_rrr (by decide) rfl rd rs1 rs2, finish_of_eq (fxFpow_eq _ _) rd s, ?_⟩, ?_⟩
  · have hdom := fxFpow_dom_iff (b := readReg s rs1) (Nat.mod_lt (readReg s rs2).toNat (by decide : 0 < 65536))
    rwa [fxFpow_eq] at hdom
  · intro b j
    have hlevels : j.val + (15 - j.val) + 1 = 16 := by omega
    have hroots : 15 - j.val + 1 = 16 - j.val := by omega
    have hbit := fxFpowLoop_single_bit (j := j.val) (n := 15 - j.val) b
    rwa [hlevels, hroots] at hbit

/-- Settles O36: the flags of the parts, of which a division alone raises DZ and a root alone raises DOM. -/
theorem powCommand : Obligations.PowCommand := by
  intro rd rs1 rs2 s
  refine ⟨decode_formWord_rrr (by decide) rfl rd rs1 rs2, ?_⟩
  intro b p m i f r d
  refine ⟨(fxPow b (readReg s rs2)).fl, ?_, ?_, fxPow_dz_iff b (readReg s rs2), fxPow_dom_iff b (readReg s rs2)⟩
  · have hexec : exec (.pow rd rs1 rs2) s = finish rd (fxPow b (readReg s rs2)) s := rfl
    have hval : (fxPow b (readReg s rs2)).val = if p < 0 then d.val else r.val := by
      rw [fxPow_eq, andThen_val]
      exact apply_ite Fx.val _ _ _
    rw [hexec, finish_eq, hval]
  · have hpos : (powPositive b m).fl = i.fl ||| f.fl ||| r.fl := (BitVec.or_assoc _ _ _).symm
    rw [fxPow_eq, andThen_fl, ← hpos]
    exact congrArg _ (apply_ite Fx.fl _ _ _)

/-- Settles O37: E is positive, so that no root raises DOM, and its eleventh power overflows. -/
theorem expCommand : Obligations.ExpCommand := by
  refine ⟨fun rd rs1 s => ⟨decode_formWord_rr (by decide) rfl rd rs1, ?_⟩, by decide, by decide⟩
  intro x r positive
  refine ⟨finish_eq rd _ s, ?_, fxPow_dz_iff E (readReg s rs1), fxPow_E_overflows⟩
  rw [← Bool.not_eq_true]
  exact fun h => absurd ((fxPow_dom_iff E (readReg s rs1)).mp h).1 (by decide)

/-- Settles O44: the integer power to 2 is the square, and the fraction 0 multiplies it by ONE. -/
theorem powerTwoIsSquare : Obligations.PowerTwoIsSquare := by
  intro rd rs1 rs2 s htwo
  calc exec (.pow rd rs1 rs2) s
    _ = finish rd (fxPow (readReg s rs1) (readReg s rs2)) s := rfl
    _ = finish rd (fxMul (readReg s rs1) (readReg s rs1)) s := by rw [htwo, fxPow_two]
    _ = exec (.mul rd rs1 rs1) s := rfl

end Sys2Proof.Machine
end

section
/-! SUPPORT. The texts of the renderers: the digits of a number, the places of a text, and what every text has in common
(R190 to R202). -/

namespace Sys2Proof.Machine

/-! The digits of a number. -/

@[simp] theorem length_digits (base v n : Nat) : (digits base v n).length = n := by
  induction n with
  | zero => rfl
  | succ n ih => simp [digits, ih]

theorem getElem_digits (base v : Nat) {n j : Nat} (hj : j < (digits base v n).length) :
    (digits base v n)[j] = v / base ^ (n - 1 - j) % base := by
  induction n generalizing j with
  | zero => simp [digits] at hj
  | succ n ih =>
    cases j with
    | zero => simp [digits]
    | succ j =>
      have hexp : n + 1 - 1 - (j + 1) = n - 1 - j := by omega
      simp only [digits, List.getElem_cons_succ, hexp]
      exact ih _

theorem lt_of_mem_digits {base v n d : Nat} (hbase : 0 < base) (h : d ∈ digits base v n) : d < base := by
  obtain ⟨j, hj, rfl⟩ := List.getElem_of_mem h
  rw [getElem_digits]
  exact Nat.mod_lt _ hbase

/-- The value of a list of decimal digits, the most significant first. -/
def decimalValue (ds : List Nat) : Nat := ds.foldl (fun n d => 10 * n + d) 0

theorem foldl_digits (v n acc : Nat) :
    (digits 10 v n).foldl (fun n d => 10 * n + d) acc = 10 ^ n * acc + v % 10 ^ n := by
  induction n generalizing acc with
  | zero => simp [digits, Nat.mod_one]
  | succ n ih =>
    rw [digits, List.foldl_cons, ih, Nat.mod_pow_succ]
    ring

theorem decimalValue_digits {v n : Nat} (h : v < 10 ^ n) : decimalValue (digits 10 v n) = v := by
  rw [decimalValue, foldl_digits, Nat.mul_zero, Nat.zero_add, Nat.mod_eq_of_lt h]

@[simp] theorem decimalValue_replicate_append (n : Nat) (ds : List Nat) :
    decimalValue (List.replicate n 0 ++ ds) = decimalValue ds := by
  induction n with
  | zero => rfl
  | succ n ih => simpa [decimalValue, List.replicate_succ] using ih

/-! Trimming (R198, R199). -/

/-- What is dropped is zeros. -/
theorem replicate_append_dropLeadingZeros : ∀ ds : List Nat, ∃ n, List.replicate n 0 ++ dropLeadingZeros ds = ds
  | [] => ⟨0, rfl⟩
  | [_] => ⟨0, rfl⟩
  | (_ + 1) :: _ :: _ => ⟨0, rfl⟩
  | 0 :: e :: ds => by
    obtain ⟨n, hn⟩ := replicate_append_dropLeadingZeros (e :: ds)
    exact ⟨n + 1, congrArg (0 :: ·) hn⟩

theorem dropLeadingZeros_ne_nil : ∀ ds : List Nat, ds ≠ [] → dropLeadingZeros ds ≠ []
  | [], h => h
  | [_], h => h
  | (_ + 1) :: _ :: _, h => h
  | 0 :: e :: ds, _ => dropLeadingZeros_ne_nil (e :: ds) (List.cons_ne_nil e ds)

/-- The first digit that is left is no zero, unless it is the last one. -/
theorem dropLeadingZeros_head : ∀ ds : List Nat,
    (dropLeadingZeros ds).length = 1 ∨ (dropLeadingZeros ds).head? ≠ some 0
  | [] => .inr nofun
  | [_] => .inl rfl
  | (_ + 1) :: _ :: _ => .inr nofun
  | 0 :: e :: ds => dropLeadingZeros_head (e :: ds)

theorem replicate_append_intDigits (ip : Nat) : ∃ n, List.replicate n 0 ++ intDigits ip = digits 10 ip 5 :=
  replicate_append_dropLeadingZeros _

theorem fracDigits_append_replicate (acc : Nat) : ∃ n, fracDigits acc ++ List.replicate n 0 = digits 10 acc 12 := by
  obtain ⟨n, hn⟩ := replicate_append_dropLeadingZeros (digits 10 acc 12).reverse
  refine ⟨n, ?_⟩
  rw [← List.reverse_inj, ← hn, fracDigits, List.reverse_append, List.reverse_reverse, List.reverse_replicate]

theorem intDigits_ne_nil (ip : Nat) : intDigits ip ≠ [] := dropLeadingZeros_ne_nil _ (by simp [digits])

theorem fracDigits_ne_nil (acc : Nat) : fracDigits acc ≠ [] := by
  simpa [fracDigits] using dropLeadingZeros_ne_nil (digits 10 acc 12).reverse (by simp [digits])

theorem intDigits_lt {ip d : Nat} (h : d ∈ intDigits ip) : d < 10 := by
  obtain ⟨n, hn⟩ := replicate_append_intDigits ip
  exact lt_of_mem_digits (by decide) (hn ▸ List.mem_append_right _ h)

theorem fracDigits_lt {acc d : Nat} (h : d ∈ fracDigits acc) : d < 10 := by
  obtain ⟨n, hn⟩ := fracDigits_append_replicate acc
  exact lt_of_mem_digits (by decide) (hn ▸ List.mem_append_left _ h)

theorem length_intDigits (ip : Nat) : 1 ≤ (intDigits ip).length ∧ (intDigits ip).length ≤ 5 := by
  obtain ⟨n, hn⟩ := replicate_append_intDigits ip
  have hlen := congrArg List.length hn
  have hpos := List.length_pos_of_ne_nil (intDigits_ne_nil ip)
  simp only [List.length_append, List.length_replicate, length_digits] at hlen
  omega

theorem length_fracDigits (acc : Nat) : 1 ≤ (fracDigits acc).length ∧ (fracDigits acc).length ≤ 12 := by
  obtain ⟨n, hn⟩ := fracDigits_append_replicate acc
  have hlen := congrArg List.length hn
  have hpos := List.length_pos_of_ne_nil (fracDigits_ne_nil acc)
  simp only [List.length_append, List.length_replicate, length_digits] at hlen
  omega

theorem decimalValue_intDigits {ip : Nat} (h : ip < 10 ^ 5) : decimalValue (intDigits ip) = ip := by
  obtain ⟨n, hn⟩ := replicate_append_intDigits ip
  rw [← decimalValue_replicate_append n, hn, decimalValue_digits h]

theorem fracDigits_getLast (acc : Nat) : (fracDigits acc).length = 1 ∨ (fracDigits acc).getLast? ≠ some 0 := by
  simpa [fracDigits] using dropLeadingZeros_head (digits 10 acc 12).reverse

/-! The fraction sum (R196, R197, R201). -/

/-- A 16-bit fraction scaled by 10^12, truncated. -/
def scaledFraction (m : Nat) : Nat := m * 10 ^ 12 / 65536

/-- 10^12 is 2^12 times a number that is 1 modulo 16, so that only the low four bits of a fraction lose anything. -/
theorem scaledFraction_eq (m : Nat) : scaledFraction m = 15258789 * m + m / 16 := by
  unfold scaledFraction
  omega

/-- The bits below bit `b` lose nothing more with it than without it. -/
theorem scaledFraction_add {b r : Nat} (hr : r < 2 ^ b) :
    scaledFraction (2 ^ b + r) = scaledFraction (2 ^ b) + scaledFraction r := by
  have hdiv : (2 ^ b + r) / 16 = 2 ^ b / 16 + r / 16 := by
    obtain hb | hb := Nat.lt_or_ge b 4
    · have hle : 2 ^ b ≤ 2 ^ 3 := Nat.pow_le_pow_right (by decide) (by omega)
      omega
    · exact Nat.add_div_of_dvd_right (pow_dvd_pow 2 hb)
  simp only [scaledFraction_eq, hdiv]
  omega

/-- The table entries that belong to the fraction bits below `b`, the highest first. -/
def decEntries : Nat → List Nat
  | 0 => []
  | b + 1 => scaledFraction (2 ^ b) :: decEntries b

theorem decTable_eq : decTable = decEntries 16 := by decide

theorem scaledFraction_mod_succ (fp b : Nat) :
    scaledFraction (fp % 2 ^ (b + 1)) =
      (if fp.testBit b then scaledFraction (2 ^ b) else 0) + scaledFraction (fp % 2 ^ b) := by
  have hadd := scaledFraction_add (Nat.mod_lt fp (Nat.two_pow_pos b))
  obtain hbit | hbit := Nat.mod_two_eq_zero_or_one (fp / 2 ^ b) <;>
    simp [Nat.testBit_eq_decide_div_mod_eq, Nat.mod_pow_succ, hbit, ← hadd, Nat.add_comm]

/-- The loop adds the scaled fraction of the bits left, with no carry where the sum stays below the threshold. -/
theorem decFracLoop_decEntries (fp ip : Nat) {b acc : Nat} (h : acc + scaledFraction (fp % 2 ^ b) < 10 ^ 12) :
    decFracLoop fp (decEntries b) b ip acc = (ip, acc + scaledFraction (fp % 2 ^ b)) := by
  induction b generalizing acc with
  | zero => simp [decEntries, decFracLoop, Nat.mod_one, scaledFraction]
  | succ b ih =>
    rw [scaledFraction_mod_succ, ← Nat.add_assoc] at h ⊢
    simp only [decEntries, decFracLoop, Nat.add_sub_cancel]
    by_cases hbit : fp.testBit b
    · rw [if_pos hbit] at h ⊢
      rw [if_pos hbit, if_neg (by omega)]
      exact ih h
    · rw [if_neg hbit] at h ⊢
      rw [if_neg hbit]
      exact ih h

theorem scaledFraction_lt {fp : Nat} (h : fp < 65536) : scaledFraction fp < 10 ^ 12 := by
  rw [scaledFraction_eq]
  omega

theorem decFrac_eq (ip : Nat) {fp : Nat} (h : fp < 65536) : decFrac ip fp = (ip, scaledFraction fp) := by
  have hmod : fp % 2 ^ 16 = fp := Nat.mod_eq_of_lt h
  have hlt : 0 + scaledFraction (fp % 2 ^ 16) < 10 ^ 12 := by
    rw [hmod, Nat.zero_add]
    exact scaledFraction_lt h
  rw [decFrac, decTable_eq, decFracLoop_decEntries fp ip hlt, hmod, Nat.zero_add]

/-! The two parts of the magnitude (R190). -/

theorem intPart_eq (a : Word) : intPart a = mag a / 65536 := Nat.shiftRight_eq_div_pow (mag a) 16

/-- The magnitude is at most 2^31, so five decimal digits hold the integer part (R198). -/
theorem intPart_lt (a : Word) : intPart a < 10 ^ 5 := by
  have hmag := mag_le a
  rw [intPart_eq]
  omega

theorem fracField_lt (a : Word) : fracField a < 65536 := Nat.mod_lt (mag a) (by decide)

/-! The places of a text. -/

/-- A sign, the characters `ch` of digits, a point, and the characters of more digits (R192, R194, R199). -/
def pointText (ch : Nat → Byte) (a : Word) (I F : List Nat) : List Byte :=
  signChar a :: I.map ch ++ chPoint :: F.map ch

theorem decText_eq_pointText (a : Word) :
    decText a = pointText decChar a (intDigits (intPart a)) (fracDigits (scaledFraction (fracField a))) := by
  unfold decText
  rw [decFrac_eq _ (fracField_lt a), pointText]

/-- The text of `n` digits in a base for each of the two parts (R192, R194). -/
def fixedText (base n : Nat) (ch : Nat → Byte) (a : Word) : List Byte :=
  pointText ch a (digits base (intPart a) n) (digits base (fracField a) n)

theorem binText_eq_fixedText (a : Word) : binText a = fixedText 2 16 decChar a := rfl
theorem hexText_eq_fixedText (a : Word) : hexText a = fixedText 16 4 hexChar a := rfl

section
variable (ch : Nat → Byte) (a : Word) (I F : List Nat)

theorem length_pointText : (pointText ch a I F).length = 2 + I.length + F.length := by
  simp only [pointText, List.length_append, List.length_cons, List.length_map]
  omega

theorem getD_pointText_int {j : Nat} (hj : j < I.length) : (pointText ch a I F).getD (1 + j) 0#8 = ch I[j] := by
  rw [pointText, Nat.add_comm, List.cons_append, List.getD_cons_succ, List.getD_append _ _ _ _ (by simpa),
    List.getD_eq_getElem _ _ (by simpa), List.getElem_map]

theorem getD_pointText_point : (pointText ch a I F).getD (1 + I.length) 0#8 = chPoint := by
  rw [pointText, Nat.add_comm, List.cons_append, List.getD_cons_succ, List.getD_append_right _ _ _ _ (by simp),
    List.length_map, Nat.sub_self, List.getD_cons_zero]

theorem getD_pointText_frac {j : Nat} (hj : j < F.length) :
    (pointText ch a I F).getD (2 + I.length + j) 0#8 = ch F[j] := by
  have hplace : 2 + I.length + j = I.length + (j + 1) + 1 := by omega
  rw [pointText, hplace, List.cons_append, List.getD_cons_succ, List.getD_append_right _ _ _ _ (by simp),
    List.length_map, Nat.add_sub_cancel_left, List.getD_cons_succ, List.getD_eq_getElem _ _ (by simpa), List.getElem_map]

end

section
variable {base w n : Nat} (ch : Nat → Byte) (a : Word)

@[simp] theorem length_fixedText : (fixedText base n ch a).length = 2 * n + 2 := by
  rw [fixedText, length_pointText, length_digits, length_digits]
  omega

theorem getD_fixedText_point : (fixedText base n ch a).getD (1 + n) 0#8 = chPoint := by
  have h := getD_pointText_point ch a (digits base (intPart a) n) (digits base (fracField a) n)
  rwa [length_digits] at h

theorem getD_fixedText_end {k : Nat} (hk : 2 * n + 2 ≤ k) : (fixedText base n ch a).getD k 0#8 = 0#8 :=
  List.getD_eq_default _ _ (by simpa)

variable {j k : Nat} (hbase : base = 2 ^ w) (hj : j < n)
include hbase hj

/-- A digit of the integer part is `w` bits of the magnitude, above its low 16. -/
theorem getD_fixedText_int (hk : k = 16 + w * (n - 1 - j)) :
    (fixedText base n ch a).getD (1 + j) 0#8 = ch (mag a / 2 ^ k % base) := by
  have hdigit : intPart a / base ^ (n - 1 - j) = mag a / 2 ^ k := by
    rw [intPart, Nat.shiftRight_eq_div_pow, Nat.div_div_eq_div_mul, hbase, ← Nat.pow_mul, ← Nat.pow_add, hk]
  rw [fixedText, getD_pointText_int _ _ _ _ (by simpa), getElem_digits, hdigit]

/-- A digit of the fraction field is `w` bits of the magnitude, within its low 16. -/
theorem getD_fixedText_frac (hk : k = w * (n - 1 - j)) (hle : k + w ≤ 16) :
    (fixedText base n ch a).getD (2 + n + j) 0#8 = ch (mag a / 2 ^ k % base) := by
  have hsplit : 2 ^ 16 = 2 ^ k * 2 ^ (16 - k) := by rw [← Nat.pow_add, Nat.add_sub_cancel' (by omega)]
  have hdigit : fracField a / base ^ (n - 1 - j) % base = mag a / 2 ^ k % base := by
    rw [hbase, ← Nat.pow_mul, ← hk, fracField, hsplit, Nat.mod_mul_right_div_self,
      Nat.mod_mod_of_dvd _ (pow_dvd_pow 2 (by omega))]
  have hplace := getD_pointText_frac ch a (digits base (intPart a) n) (digits base (fracField a) n) (j := j) (by simpa)
  rwa [getElem_digits, hdigit, length_digits] at hplace

end

/-! The characters (R15, R190, R194). -/

theorem signChar_eq (a : Word) : signChar a = if a.toInt < 0 then 0x2D#8 else 0x20#8 := by
  simp [signChar, neg, chMinus, chSpace]

/-- A binary digit's character. -/
theorem decChar_bit (m k : Nat) : decChar (m / 2 ^ k % 2) = if m.testBit k then 0x31#8 else 0x30#8 := by
  obtain h | h := Nat.mod_two_eq_zero_or_one (m / 2 ^ k) <;> simp [Nat.testBit_eq_decide_div_mod_eq, h, decChar]

/-- A hexadecimal digit's character: the letters go on where 'A' less 10 is 0x37 (R194). -/
theorem hexChar_eq (d : Nat) : hexChar d = if d < 10 then BitVec.ofNat 8 (0x30 + d) else BitVec.ofNat 8 (0x37 + d) := by
  unfold hexChar decChar
  split
  · rfl
  · congr 1
    omega

/-! The bytes and the length of a text (R15, R29, R202). -/

/-- What every text of a renderer is. -/
structure RenderedText (text : List Byte) : Prop where
  bytes : ∀ b ∈ text, isTextByte b = true
  length : text.length = 34 ∨ (4 ≤ text.length ∧ text.length ≤ 19)

theorem isTextByte_signChar (a : Word) : isTextByte (signChar a) = true := by
  unfold signChar
  split <;> decide

theorem isTextByte_decChar {d : Nat} (h : d < 10) : isTextByte (decChar d) = true := by
  revert d
  decide

theorem isTextByte_hexChar {d : Nat} (h : d < 16) : isTextByte (hexChar d) = true := by
  revert d
  decide

theorem isTextByte_of_mem_pointText {ch : Nat → Byte} {a : Word} {I F : List Nat}
    (hI : ∀ d ∈ I, isTextByte (ch d) = true) (hF : ∀ d ∈ F, isTextByte (ch d) = true) {b : Byte} (h : b ∈ pointText ch a I F) : isTextByte b = true := by
  simp only [pointText, List.cons_append, List.mem_cons, List.mem_append, List.mem_map] at h
  obtain rfl | ⟨d, hd, rfl⟩ | rfl | ⟨d, hd, rfl⟩ := h
  · exact isTextByte_signChar a
  · exact hI d hd
  · decide
  · exact hF d hd

theorem isTextByte_of_mem_fixedText {base n : Nat} {ch : Nat → Byte} {a : Word} (hbase : 0 < base)
    (hch : ∀ d < base, isTextByte (ch d) = true) {b : Byte} (h : b ∈ fixedText base n ch a) : isTextByte b = true :=
  have hdigits : ∀ v, ∀ d ∈ digits base v n, isTextByte (ch d) = true := fun _ d hd => hch d (lt_of_mem_digits hbase hd)
  isTextByte_of_mem_pointText (hdigits _) (hdigits _) h

theorem renderedText_binText (a : Word) : RenderedText (binText a) where
  bytes _ h := isTextByte_of_mem_fixedText (by decide) (fun _ hd => isTextByte_decChar (by omega)) h
  length := .inl (length_fixedText decChar a)

theorem renderedText_hexText (a : Word) : RenderedText (hexText a) where
  bytes _ h := isTextByte_of_mem_fixedText (by decide) (fun _ hd => isTextByte_hexChar hd) h
  length := .inr (by rw [hexText_eq_fixedText, length_fixedText]; decide)

theorem length_decText (a : Word) :
    (decText a).length = 2 + (intDigits (intPart a)).length + (fracDigits (scaledFraction (fracField a))).length := by
  rw [decText_eq_pointText, length_pointText]

theorem renderedText_decText (a : Word) : RenderedText (decText a) where
  bytes _ h := isTextByte_of_mem_pointText (fun _ hd => isTextByte_decChar (intDigits_lt hd))
    (fun _ hd => isTextByte_decChar (fracDigits_lt hd)) (decText_eq_pointText a ▸ h)
  length := by
    have hint := length_intDigits (intPart a)
    have hfrac := length_fracDigits (scaledFraction (fracField a))
    rw [length_decText]
    omega

end Sys2Proof.Machine
end

section
/-! SUPPORT. What a render leaves (R28, R29, R191, R222), and that every step keeps the forms of the invariant (R191, R202,
R225). -/

namespace Sys2Proof.Machine

/-! What a render leaves. -/

theorem decode_formWord_s {op : Nat} (hop : op < 256) {build : Reg → Instr}
    (h : opTable.lookup (BitVec.ofNat 8 op) = some (.s build)) (rs1 : Reg) :
    decode (formWord op 0 rs1.val 0) = .ok (build rs1) := by
  rw [formWord_eq_commandWord hop (by omega) (by omega) (by omega)]
  exact decode_wordS h rs1

/-- OUT, OUTLEN, LAST and BUSY change, and nothing else does. -/
theorem commit_renderText_eq (text : List Byte) (s : State) :
    commit 0#4 (renderText text s) =
      { s with out := (renderText text s).out, outlen := BitVec.ofNat 6 text.length, last := 0#4, executing := none } := by
  simp [commit, renderText]

theorem exec_render {i : Instr} (h : destOf i = none) (s : State) :
    ∃ text, RenderedText text ∧ exec i s = .next (commit 0#4 (renderText text s)) := by
  obtain ⟨r, rfl | rfl | rfl⟩ := (destOf_eq_none_iff i).mp h
  · exact ⟨_, renderedText_binText _, runS_eq binText r s⟩
  · exact ⟨_, renderedText_hexText _, runS_eq hexText r s⟩
  · exact ⟨_, renderedText_decText _, runS_eq decText r s⟩

theorem offset_of_windowReg_outlen {off : Nat} (h : windowReg off = .outlen) : off = 0x30 := by
  unfold windowReg at h
  split_ifs at h
  assumption

theorem offset_of_windowReg_out {off : Nat} {k : Fin 9} (h : windowReg off = .out k) : 0x40 ≤ off ∧ off < 0x64 := by
  unfold windowReg at h
  split_ifs at h
  omega

/-- After a render every word of the window but STATUS, OUTLEN and OUT0..OUT8 reads as before (R191). -/
theorem readWindow_render {off : Nat} (text : List Byte) (s : State) (hstatus : off ≠ 0x04) (houtlen : off ≠ 0x30)
    (hout : ¬ (0x40 ≤ off ∧ off < 0x64)) : readWindow (commit 0#4 (renderText text s)) off = readWindow s off := by
  cases hw : windowReg off with
  | status => exact absurd (offset_of_windowReg_status hw) hstatus
  | outlen => exact absurd (offset_of_windowReg_outlen hw) houtlen
  | out k => exact absurd (offset_of_windowReg_out hw) hout
  | flags => simp [readWindow, hw]
  | data r => simp [readWindow, hw]
  | id => simp only [readWindow, hw]
  | cmd => simp only [readWindow, hw]
  | reserved => simp only [readWindow, hw]

/-! The forms of the invariant that speak of OUT, OUTLEN and LAST. -/

structure RegisterForm (s : State) : Prop where
  text : TextForm s
  length : LengthForm s
  last : LastForm s

theorem inv_iff (s : State) : Inv s ↔ RegisterForm s ∧ ResetForm s :=
  ⟨fun ⟨htext, hlength, hlast, hreset⟩ => ⟨⟨htext, hlength, hlast⟩, hreset⟩,
    fun ⟨⟨htext, hlength, hlast⟩, hreset⟩ => ⟨htext, hlength, hlast, hreset⟩⟩

theorem TextForm.congr {s t : State} (h : TextForm s) (hout : t.out = s.out) (houtlen : t.outlen = s.outlen) :
    TextForm t := by
  unfold TextForm
  rwa [hout, houtlen]

theorem LengthForm.congr {s t : State} (h : LengthForm s) (houtlen : t.outlen = s.outlen) : LengthForm t := by
  unfold LengthForm
  rwa [houtlen]

theorem RegisterForm.congr {s t : State} (h : RegisterForm s) (hout : t.out = s.out) (houtlen : t.outlen = s.outlen)
    (hlast : t.last = s.last) : RegisterForm t where
  text := h.text.congr hout houtlen
  length := h.length.congr houtlen
  last := by
    unfold LastForm
    rw [hlast]
    exact h.last

/-- OUTLEN has room for the length of a text. -/
theorem RenderedText.toNat_length {text : List Byte} (h : RenderedText text) :
    (BitVec.ofNat 6 text.length).toNat = text.length := by
  have hlength := h.length
  rw [BitVec.toNat_ofNat, Nat.mod_eq_of_lt (by omega)]

theorem lastForm_of_noIll {s : State} (h : s.last.getLsbD 3 = false) : LastForm s := by
  have hbit : ∀ l : FlagSet, l.getLsbD 3 = false → l &&& 0b1000#4 = 0#4 := by decide
  exact .inr (hbit s.last h)

theorem RenderedText.registerForm {text : List Byte} (h : RenderedText text) (s : State) :
    RegisterForm (commit 0#4 (renderText text s)) where
  text k := by
    rw [commit_outlen, renderText_outlen, h.toNat_length]
    simp only [commit_out, renderText_out_getElem]
    split
    · rename_i hk
      rw [List.getD_eq_getElem _ _ hk]
      exact h.bytes _ (List.getElem_mem hk)
    · exact List.getD_eq_default _ _ (by omega)
  length := by
    unfold LengthForm
    rw [commit_outlen, renderText_outlen, h.toNat_length]
    exact .inr h.length
  last := lastForm_of_noIll (by simp)

theorem complete_registerForm {c : Word} {s t : State} (hs : RegisterForm s) (h : complete c s = .next t) :
    RegisterForm t := by
  cases hd : decode c with
  | error e =>
    rw [complete_error hd] at h
    cases h
    exact ⟨hs.text, hs.length, .inl rfl⟩
  | ok i =>
    rw [complete_ok hd] at h
    cases hdest : destOf i with
    | some rd =>
      obtain ⟨hwf, -⟩ := encodeOfDecode c i hd
      obtain ⟨r, hill, hexec⟩ := exec_writes_destination hdest hwf s
      obtain rfl := Host.Outcome.next.inj (hexec.symm.trans h)
      exact ⟨hs.text, hs.length, lastForm_of_noIll hill⟩
    | none =>
      obtain ⟨text, htext, hexec⟩ := exec_render hdest s
      obtain rfl := Host.Outcome.next.inj (hexec.symm.trans h)
      exact htext.registerForm s

theorem registerForm_applyReset (s : State) : RegisterForm (applyReset s) := by
  obtain ⟨htext, hlength, hlast, -⟩ := resetMeetsInvariant
  exact ⟨htext, hlength, hlast⟩

theorem step_registerForm {s t : State} (hs : RegisterForm s) (h : step s = .next t) : RegisterForm t := by
  cases step_effect h with
  | completes c u _ hu ht =>
    have hfrom : RegisterForm u := by obtain rfl | rfl := hu <;> exact hs.congr rfl rfl rfl
    exact complete_registerForm hfrom ht
  | resets u _ ht => exact ht ▸ registerForm_applyReset u
  | writesCmd a rest v _ _ _ ht => exact ht ▸ hs.congr rfl rfl rfl
  | writesFlags a rest v _ _ _ ht => exact ht ▸ hs.congr rfl rfl rfl
  | writesReg a rest v r _ _ _ ht => exact ht ▸ hs.congr rfl rfl rfl
  | keeps hkept => exact hs.congr hkept.out hkept.outlen hkept.last

/-! The state while reset is asserted. -/

theorem resetForm_applyReset (s : State) : ResetForm (applyReset s) := fun _ => ⟨rfl, rfl, rfl, rfl, rfl, rfl⟩

theorem resetForm_of_released {s : State} (h : s.inReset = false) : ResetForm s := fun hr => by simp [h] at hr

@[simp] theorem writeWindow_inReset (s : State) (off : Nat) (v : Word) : (writeWindow s off v).inReset = s.inReset := by
  unfold writeWindow
  split <;> rfl

/-- While reset is asserted an idle block serves no access of its window (R250). -/
theorem idleStep_resetForm {s t : State} (hs : ResetForm s) (h : idleStep s = .next t) : ResetForm t := by
  obtain ⟨-, rfl⟩ | ⟨rest, -, rfl⟩ | ⟨rest, -, rfl⟩ | ⟨a, rest, -, -, rfl⟩ | ⟨a, rest, -, -, -, hr, -, rfl⟩ |
    ⟨a, rest, v, -, -, -, hr, -, rfl⟩ := idleStep_cases h
  · exact hs
  · exact resetForm_applyReset _
  · exact resetForm_of_released rfl
  · exact hs
  · exact resetForm_of_released hr
  · exact resetForm_of_released (by simpa using hr)

theorem complete_resetForm {c : Word} {s t : State} (hr : s.inReset = false) (h : complete c s = .next t) :
    ResetForm t := by
  obtain ⟨u, hu, -, hkept, -⟩ := complete_next c s
  obtain rfl := Host.Outcome.next.inj (hu.symm.trans h)
  exact resetForm_of_released (hkept.trans hr)

/-- A busy block that is out of reset stays so unless a reset is applied (R251). -/
theorem busyStep_resetForm {c : Word} {s t : State} (hr : s.inReset = false) (h : busyStep c s = .next t) :
    ResetForm t := by
  obtain hb | hb | ⟨rest, hb, -⟩ | ⟨rest, hb, -⟩ | ⟨rest, hb, -⟩ | ⟨rest, hb, -⟩ | ⟨a, later, hb, -⟩ :=
    busyStep_cases c s <;> rw [hb] at h
  · exact complete_resetForm hr h
  · exact complete_resetForm (s := countDraw s) hr h
  all_goals obtain rfl := Host.Outcome.next.inj h
  · exact resetForm_of_released hr
  · exact resetForm_of_released hr
  · exact resetForm_of_released rfl
  · exact resetForm_applyReset _
  · exact resetForm_applyReset _

theorem step_resetForm {s t : State} (hs : ResetForm s) (h : step s = .next t) : ResetForm t := by
  cases hx : s.executing with
  | none => exact idleStep_resetForm hs (step_idle hx ▸ h)
  | some c =>
    have hr : s.inReset = false := by
      by_contra hasserted
      obtain ⟨-, -, -, -, -, hidle⟩ := hs (Bool.not_eq_false _ ▸ hasserted)
      simp [hx] at hidle
    exact busyStep_resetForm hr (step_busy hx ▸ h)

end Sys2Proof.Machine
end

section
/-! PROOF. The statements about the renderers and the invariant (42_format.md). -/

namespace Sys2Proof.Machine

/-- Settles O51: a step keeps the forms of OUT, OUTLEN and LAST, and the form of the state in reset. -/
theorem stepKeepsInvariant : Obligations.StepKeepsInvariant := by
  intro s t hs h
  obtain ⟨hform, hreset⟩ := (inv_iff s).mp hs
  exact (inv_iff t).mpr ⟨step_registerForm hform h, step_resetForm hreset h⟩

/-- Settles O48: the sum of the table is below the threshold, and an entry loses nothing that the fraction does not. -/
theorem decimalCarryNeverFires : Obligations.DecimalCarryNeverFires := ⟨by decide, fun ip _ h => decFrac_eq ip h⟩

/-- Settles O50: what a render leaves, field by field, with the frame of the window. -/
theorem renderFrame : Obligations.RenderFrame := by
  intro i s hd
  obtain ⟨text, -, hexec⟩ := exec_render hd s
  exact ⟨_, hexec, rfl, by simp, rfl, rfl, rfl, rfl, rfl, rfl,
    fun off _ _ hstatus houtlen hout => readWindow_render text s hstatus houtlen hout⟩

/-- Settles O45: the places of a text of binary digits, each a bit of the magnitude. -/
theorem rbinCommand : Obligations.RbinCommand := by
  intro rs1 s
  refine ⟨decode_formWord_s (by decide) rfl rs1, _, runS_eq binText rs1 s, ?_, ?_, ?_, ?_, ?_, ?_, ?_⟩
  · exact commit_renderText_eq _ s
  all_goals simp only [commit_out, renderText_out_getElem, binText_eq_fixedText]
  · exact signChar_eq _
  · intro j
    exact (getD_fixedText_int (w := 1) (k := 31 - j.val) decChar _ rfl j.isLt (by omega)).trans (decChar_bit _ _)
  · exact getD_fixedText_point (n := 16) decChar _
  · intro j
    exact (getD_fixedText_frac (w := 1) (k := 15 - j.val) decChar _ rfl j.isLt (by omega) (by omega)).trans
      (decChar_bit _ _)
  · exact getD_fixedText_end decChar _ (by decide)
  · exact getD_fixedText_end decChar _ (by decide)

/-- Settles O46: the places of a text of hexadecimal digits, each four bits of the magnitude. -/
theorem rhexCommand : Obligations.RhexCommand := by
  intro rs1 s
  refine ⟨decode_formWord_s (by decide) rfl rs1, _, runS_eq hexText rs1 s, ?_, ?_, ?_, ?_, ?_, ?_⟩
  · exact commit_renderText_eq _ s
  all_goals simp only [commit_out, renderText_out_getElem, hexText_eq_fixedText]
  · exact signChar_eq _
  · intro j
    exact (getD_fixedText_int (w := 4) (k := 28 - 4 * j.val) hexChar _ rfl j.isLt (by omega)).trans (hexChar_eq _)
  · exact getD_fixedText_point (n := 4) hexChar _
  · intro j
    exact (getD_fixedText_frac (w := 4) (k := 12 - 4 * j.val) hexChar _ rfl j.isLt (by omega) (by omega)).trans
      (hexChar_eq _)
  · exact fun k hk => getD_fixedText_end hexChar _ hk

/-- Settles O47: the integer part and the scaled fraction are the values of their digits, and what is trimmed is zeros. -/
theorem rdecCommand : Obligations.RdecCommand := by
  intro rs1 s
  refine ⟨decode_formWord_s (by decide) rfl rs1, ?_⟩
  have hexec : exec (.rdec rs1) s = .next (commit 0#4 (renderText (decText (readReg s rs1)) s)) := runS_eq decText rs1 s
  generalize readReg s rs1 = w at hexec ⊢
  intro a m number ascii
  have hstate := commit_renderText_eq (decText w) s
  rw [length_decText] at hstate
  obtain ⟨z, hz⟩ := fracDigits_append_replicate (scaledFraction (fracField w))
  refine ⟨intDigits (intPart w), fracDigits (scaledFraction (fracField w)), List.replicate z 0, _, hexec,
    ⟨intDigits_ne_nil _, fun d hd => intDigits_lt hd, ?_, dropLeadingZeros_head _⟩,
    ⟨fracDigits_ne_nil _, fun d hd => fracDigits_lt hd, fun d hd => List.eq_of_mem_replicate hd, ?_, ?_,
      fracDigits_getLast _⟩, hstate, ?_⟩
  · exact (decimalValue_intDigits (intPart_lt w)).trans (intPart_eq w)
  · rw [hz, length_digits]
  · rw [hz]
    exact decimalValue_digits (scaledFraction_lt (fracField_lt w))
  · intro k
    rw [commit_out, renderText_out_getElem, decText_eq_pointText, pointText, signChar_eq]
    rfl

end Sys2Proof.Machine
end

section
/-! PROOF. The statement about a command word that is no well-formed command's encoding (R78, R84, R224). -/

namespace Sys2Proof.Machine

/-- The decoder answers only commands whose encoding is the word, so a word that encodes none of them is refused. -/
theorem decode_error_of_not_encoding {c : Word} (h : ¬ ∃ i : Instr, i.wellFormed = true ∧ encode i = c) :
    ∃ e, decode c = .error e := by
  cases hd : decode c with
  | ok i => exact absurd ⟨i, encodeOfDecode c i hd⟩ h
  | error e => exact ⟨e, rfl⟩

/-- Settles O7: the word does not decode, and with nothing before it the step is its completion as an illegal word. -/
theorem illegalCommandOnlyRaisesIll : Obligations.IllegalCommandOnlyRaisesIll := by
  intro s c hx hfirst hnone
  obtain ⟨e, hd⟩ := decode_error_of_not_encoding hnone
  calc step s = complete c s := (step_busy hx).trans (busyStep_of_nothingComesFirst c hfirst)
    _ = .next (afterIllegal s) := complete_error hd s
    _ = _ := rfl

end Sys2Proof.Machine
end

section
/-! SUPPORT. Resets, and a command followed at once by an access: what an idle and a busy block do with a reset, at once or
behind a held access, and what a command with a destination writes (R54, R58, R85, R250, R251, R254). -/

namespace Sys2Proof.Machine

/-! Resets. -/

theorem step_idle_assertReset {s : State} {rest : List HostEvent} (hx : s.executing = none)
    (hp : s.pending = .assertReset :: rest) : step s = .next (applyReset { s with pending := rest }) := by
  simp [step_idle hx, idleStep, hp, serve]

theorem step_idle_releaseReset {s : State} {rest : List HostEvent} (hx : s.executing = none)
    (hp : s.pending = .releaseReset :: rest) : step s = .next (releaseReset { s with pending := rest }) := by
  simp [step_idle hx, idleStep, hp, serve]

theorem perform_duringReset {a : Access} {s : State} (ha : a.reaches = true) (hr : s.inReset = true) :
    perform a s = .refused .accessDuringReset := by
  simp [perform, ha, hr]

theorem busyStep_reset (c : Word) {s : State} {rest : List HostEvent} (hp : s.pending = .assertReset :: rest) :
    busyStep c s = .next (applyReset { s with pending := rest }) := by
  simp [busyStep, hp]

/-- With a reset behind a held access the draw says which of the completion and the reset comes first (R251). -/
theorem busyStep_held_reset (c : Word) {s : State} {a : Access} {later : List HostEvent}
    (hp : s.pending = .access a :: .assertReset :: later) (ha : a.reaches = true) (hs : a.isStatusRead = false) :
    busyStep c s = if Config.commandCompletesFirst s.draws then complete c (countDraw s)
      else .next (applyReset { countDraw s with pending := later }) := by
  simp [busyStep, hp, ha, hs]

/-! A command and the access behind it. -/

/-- An access at any other offset than that of STATUS is no STATUS read (R25). -/
theorem not_isStatusRead_at {off : Nat} (h : off ≠ 0x04) (bytes : Nat) (kind : AccessKind) :
    Access.isStatusRead ⟨Config.pBase + off, bytes, kind⟩ = false := by
  simp [Access.isStatusRead, h]

/-- An access of a data register is held while a command executes (R58). -/
theorem nothingComesFirst_data (r : Reg) (bytes : Nat) (kind : AccessKind) :
    NothingComesFirst [.access ⟨Config.pBase + (0x10 + 4 * r.val), bytes, kind⟩] :=
  ⟨reaches_at (by omega) bytes kind, not_isStatusRead_at (by omega) bytes kind, by simp⟩

/-- What a well-formed command writes to its destination depends on the data registers alone (R54, R85). -/
theorem exec_destination_uniform {i : Instr} {rd : Reg} (hd : destOf i = some rd) (hwf : i.wellFormed = true) :
    ∃ f : Vector Word 8 → Fx Word, ∀ s, exec i s = .next (afterCommand rd (f s.x).val (f s.x).fl s) := by
  obtain ⟨q, hq, f, hexec⟩ | ⟨hnone, -⟩ | ⟨hill, -⟩ := exec_uniform i
  · obtain rfl := Option.some.inj (hq.symm.trans hd)
    exact ⟨f, hexec⟩
  · simp [hd] at hnone
  · simp [hwf] at hill

/-- An executing command completes, and the read of a data register that was held is answered with what it leaves (R58). -/
theorem run_completion_then_read {s t : State} {c : Word} {i : Instr} {r : Reg} (hx : s.executing = some c)
    (hr : s.inReset = false) (hdec : decode c = .ok i) (hexec : exec i s = .next t)
    (hp : s.pending = [.access ⟨Config.pBase + (0x10 + 4 * r.val), 4, .read⟩]) :
    Host.Core.run Sys2Proof.core 2 s =
      .next { t with pending := [], replies := ⟨0x10 + 4 * r.val, readReg t r⟩ :: t.replies } := by
  have hcomplete : step s = .next t :=
    (stepRunsDecodedCommand.1 s c i hx hdec (hp ▸ nothingComesFirst_data r 4 .read)).trans hexec
  obtain ⟨u, hu, hxt, hrt, hpt, -⟩ := exec_next i s
  obtain rfl := Host.Outcome.next.inj (hu.symm.trans hexec)
  have hread := step_read_at (by omega) (by omega) hxt (hrt.trans hr) (hpt.trans hp)
  rw [run_next hcomplete, run_next hread, run_zero, readWindow_data]

end Sys2Proof.Machine
end

section
/-! PROOF. The statements about resets, and about a read of the result right behind its command (70_reset_and_hazards.md). -/

namespace Sys2Proof.Machine

/-- Settles O18: a reset at once is the step; behind a held access the draw is split. -/
theorem resetAbandonsTheCommand : Obligations.ResetAbandonsTheCommand := by
  constructor
  · intro s c rest hx hp
    exact (step_busy hx).trans (busyStep_reset c hp)
  · intro s c a later hx hp ha hs
    rw [step_busy hx, busyStep_held_reset c hp ha hs]
    split
    · obtain ⟨t, ht, -, -, hpending, -⟩ := complete_next c (countDraw s)
      exact .inr ⟨t, ht, ht, hpending⟩
    · exact .inl rfl

/-- Settles O19: the access finds reset asserted; assertion and release are two steps of an idle block. -/
theorem accessesDuringReset : Obligations.AccessesDuringReset := by
  constructor
  · intro s a rest hx hr hp ha
    rw [step_access hx hp, perform_duringReset ha (by exact hr)]
  · intro s rest hx hp
    have hassert := step_idle_assertReset hx hp
    have hrelease := step_idle_releaseReset (s := applyReset { s with pending := .releaseReset :: rest }) rfl rfl
    rw [run_next hassert, run_next hrelease, run_zero]
    rfl

/-- Settles O58: the write issues the command, the held read waits for its completion, and then it reads the destination. -/
theorem readAfterCommandReturnsResult : Obligations.ReadAfterCommandReturnsResult := by
  intro s c i rd hx hr hdec hd hp
  obtain ⟨hwf, -⟩ := encodeOfDecode c i hdec
  obtain ⟨f, hexec⟩ := exec_destination_uniform hd hwf
  rw [Nat.add_assoc] at hp
  obtain ⟨hissue, -⟩ := cmdWriteIssuesCommand s c _ hx hr hp
  have hrun := (run_next hissue 2).trans (run_completion_then_read (r := rd) rfl hr hdec (hexec _) rfl)
  exact ⟨_, _, hexec s, hrun, rfl, rfl, rfl, rfl, rfl⟩

end Sys2Proof.Machine
end
